-- ==== Sys2Proof/Word.lean ====
section
/-! DEFINITION. The machine's two data widths: the 32-bit word and the 8-bit byte of the two streams
(00_scope.md R6, R9), with the register index. -/

namespace Sys2Proof

/-- A word: "a 32-bit unsigned integer, the machine's native value size" (R12, R6). -/
abbrev Word := BitVec 32

/-- An Input or Output datum, one byte (R6). -/
abbrev Byte := BitVec 8

/-- The codec's container word, 64 bits (R90). -/
abbrev Container := BitVec 64

/-- A register index, always in `0 .. 7`: a type with 8 members, so that no index fault can be written
(R22, U1). -/
abbrev Reg := Fin 8

/-- The sentinel value: end-of-stream on input, "do not print" on output (R12). -/
abbrev sentinel : Word := 0xFFFFFFFF#32

end Sys2Proof
end

