-- ==== Sys2Proof/Machine/FatalFault.lean ====
section
/-! DEFINITION. The seven fatal faults of the machine and the information each records
(60_exceptions.md R240). They are values of the run state, not stops of the model: a cycle that raises one
answers a next state (R241). -/

namespace Sys2Proof.Machine

/-- The seven faults of R240, in the order of its table. -/
inductive FatalFault where
  /-- Code 1, raised by the cycle: the fetched word has opcode 14 or 15 (R135); records the word. -/
  | invalidOpcode (word : Word)
  /-- Code 2, raised by SegmentLoad, SegmentStore, UnmapSegment and LoadProgram: the segment id is not mapped;
  records the id. -/
  | unmappedAccess (id : Word)
  /-- Code 3, raised by SegmentLoad and SegmentStore: the id is mapped and the offset is not below the
  segment's length; records both. -/
  | outOfBounds (id off : Word)
  /-- Code 4, raised by Divide: the divisor is 0. -/
  | divideByZero
  /-- Code 5, raised by Output: the value is above 255 and is not the sentinel; records the value. -/
  | outputRange (value : Word)
  /-- Code 6, raised by UnmapSegment: the id is 0 (92_eei_decisions.md D5). -/
  | unmapSegmentZero
  /-- Code 7, raised by MapSegment: the pool is empty and `2^32` ids have been issued (R70, D11). -/
  | segmentIdExhausted
deriving DecidableEq, Repr

/-- The spec's own numbering of the faults (R240 column "code", D13). -/
def FatalFault.code : FatalFault → Nat
  | .invalidOpcode _ => 1
  | .unmappedAccess _ => 2
  | .outOfBounds _ _ => 3
  | .divideByZero => 4
  | .outputRange _ => 5
  | .unmapSegmentZero => 6
  | .segmentIdExhausted => 7

end Sys2Proof.Machine
end

