-- ==== Sys2Proof/Config.lean ====
section
/-! DEFINITION. What is fixed for a run but has no value in the spec: the two open parameters of a fault's
report (00_scope.md R7, 92_eei_decisions.md D17) and the two codec results the spec leaves as "any value"
(93_implementation_defined.md U2). None has a body: no proof can learn a value. The other two parameters of R7,
`PROG` and `IN`, are arguments of reset and stand in the state. -/

namespace Sys2Proof

/-- `FAULT_STATUS`: the exit status of a fault, of which only "not zero" is fixed (R7, R242, U10).
Assumption log 7. -/
opaque Config.faultStatus : ℕ+

/-- `DIAG`: the text of a fault's diagnostic, which the source does not give (R7, U10); it may depend on the
fault and its information (R241). Assumption log 7. -/
opaque Config.diag : Machine.FatalFault → String

/-- `fits_signed(value, 0)`: not specified (R92, U2). Assumption log 8. -/
opaque Config.fitsSignedWidthZero : Container → Bool

/-- `get_signed(word, 0, lsb)`: not specified (R94, U2). Assumption log 8. -/
opaque Config.getSignedWidthZero : Container → Nat → Container

end Sys2Proof
end

