-- ==== Sys2Proof/Machine/Codec.lean ====
section
/-! DEFINITION. The bit-field codec of 30_encoding.md R90 to R97, on 64-bit containers, and the byte order of
the program binary (20_memory.md R52).

The precondition of R90 (`width <= 64`, `width + lsb <= 64`) is a proof argument: a call that breaks it cannot be
written (93_implementation_defined.md U1, assumption log 9). The six functions are given by arithmetic, so the
source's internal shift helpers are not defined (R97, U3, assumption log 10). -/

namespace Sys2Proof.Machine

/-- "the codec itself treats it as a hard failure": `OverflowError`, raised to whoever builds a word, never by
the running machine (R95, R256). -/
inductive CodecError where
  /-- The value does not fit the field. -/
  | overflowError
deriving DecidableEq, Repr

/-- `zext_64(word)`: an instruction word in the codec's container (R90). -/
def zext64 (w : Word) : Container := w.setWidth 64

/-- `fits_unsigned(value, width)`: `value < 2^width`, in unbounded integers (R91). -/
def fitsUnsigned (value : Container) (width : Nat) (_h : width ≤ 64) : Bool :=
  value.toNat < 2 ^ width

/-- `fits_signed(value, width)`: the two's-complement range of `width` bits; free at width 0 (R92, U2). -/
def fitsSigned (value : Container) (width : Nat) (_h : width ≤ 64) : Bool :=
  match width with
  | 0 => Config.fitsSignedWidthZero value
  | k + 1 => -(2 : Int) ^ k ≤ value.toInt ∧ value.toInt ≤ 2 ^ k - 1

/-- `get_unsigned(word, width, lsb)` = `(word >> lsb) mod 2^width` (R93). -/
def getUnsigned (word : Container) (width lsb : Nat) (_h : width + lsb ≤ 64) : Container :=
  BitVec.ofNat 64 ((word >>> lsb).toNat % 2 ^ width)

/-- `get_signed(word, width, lsb)`: the field read as a two's-complement number of `width` bits; free at width 0
(R94, U2). -/
def getSigned (word : Container) (width lsb : Nat) (h : width + lsb ≤ 64) : Container :=
  match width with
  | 0 => Config.getSignedWidthZero word lsb
  | k + 1 =>
    let f := (getUnsigned word (k + 1) lsb h).toNat
    BitVec.ofInt 64 (if 2 ^ k ≤ f then (f : Int) - 2 ^ (k + 1) else f)

/-- The bits `lsb+width-1 .. lsb` of a container: `(2^width - 1) << lsb` (R95). -/
def fieldMask (width lsb : Nat) : Container := BitVec.ofNat 64 (2 ^ width - 1) <<< lsb

/-- `put_unsigned(word, width, lsb, value)` (R95). -/
def putUnsigned (word : Container) (width lsb : Nat) (value : Container) (h : width + lsb ≤ 64) :
    Except CodecError Container :=
  if fitsUnsigned value width (by omega) then
    .ok ((word &&& ~~~(fieldMask width lsb)) ||| (value <<< lsb))
  else .error .overflowError

/-- `put_signed(word, width, lsb, value)`: validated with `fits_signed`, stores `value mod 2^width`
(R96; the two's-complement reading is 93 G3, assumption log 21). -/
def putSigned (word : Container) (width lsb : Nat) (value : Container) (h : width + lsb ≤ 64) :
    Except CodecError Container :=
  if fitsSigned value width (by omega) then
    putUnsigned word width lsb (BitVec.ofInt 64 (value.toInt % 2 ^ width)) h
  else .error .overflowError

/-- Four bytes of the program binary, most significant first, make a word (R52). -/
def wordOfBytes (b0 b1 b2 b3 : Byte) : Word := b0 ++ b1 ++ b2 ++ b3

/-- The four bytes of a word in the order of the program binary (R52). -/
def bytesOfWord (w : Word) : List Byte :=
  [w.extractLsb' 24 8, w.extractLsb' 16 8, w.extractLsb' 8 8, w.extractLsb' 0 8]

end Sys2Proof.Machine
end

