-- ==== Sys2Proof/Syntax.lean ====
section
/-! DEFINITION. The 14 instructions of UM-14, one constructor per row of spec/opcode_table.json, each with the
operands the row's "fields" name (30_encoding.md R102, R104), and the decoder's result type (R101). -/

namespace Sys2Proof

/-- A decoded instruction with the fields its effect names. The immediate of LoadImmediate is carried
zero-extended to a word (R103); `Instr.WellFormed` bounds it to 25 bits (assumption log 18). -/
inductive Instr where
  | conditionalMove (a b c : Reg)
  | segmentLoad (a b c : Reg)
  | segmentStore (a b c : Reg)
  | add (a b c : Reg)
  | multiply (a b c : Reg)
  | divide (a b c : Reg)
  | nand (a b c : Reg)
  | halt
  | mapSegment (b c : Reg)
  | unmapSegment (c : Reg)
  | output (c : Reg)
  | input (c : Reg)
  | loadProgram (b c : Reg)
  | loadImmediate (dest : Reg) (value : Word)
deriving DecidableEq, Repr

/-- The result of `decode(word)` (R101): the two instruction shapes with all the fields of their format
(R98, R99), and the third outcome for opcodes 14 and 15 (90_conflicts.md C11). -/
inductive Decoded where
  /-- The three-register format, opcodes 0 to 12. -/
  | threeRegister (opcode : Fin 13) (a b c : Reg)
  /-- The load-immediate format, opcode 13. -/
  | loadImmediate (dest : Reg) (value : BitVec 25)
  /-- Opcode 14 or 15. -/
  | invalid (opcode : BitVec 4)
deriving DecidableEq, Repr

end Sys2Proof
end

