-- ==== Sys2Proof/WellFormed.lean ====
section
/-! DEFINITION. Which instruction terms have an encoding. Register operands are bounded by their type; the one
operand that can be out of its range is the immediate of LoadImmediate, `0 .. 2^25 - 1` (30_encoding.md R99,
R103, R108). -/

namespace Sys2Proof

/-- The one check: the immediate fits 25 bits (R103). -/
def Instr.immediateFits : Instr → Bool
  | .loadImmediate _ value => value.toNat < 2 ^ 25
  | .conditionalMove _ _ _ | .segmentLoad _ _ _ | .segmentStore _ _ _ | .add _ _ _ | .multiply _ _ _
  | .divide _ _ _ | .nand _ _ _ | .halt | .mapSegment _ _ | .unmapSegment _ | .output _ | .input _
  | .loadProgram _ _ => true

/-- A term that some word encodes. -/
abbrev Instr.WellFormed (i : Instr) : Prop := i.immediateFits = true

end Sys2Proof
end

