-- ==== Sys2Proof/Decode.lean ====
section
/-! DEFINITION. The decoder of 30_encoding.md R98 to R106, total on every 32-bit word, and the encoder of R108.
The bits of a field are written `word[hi:lo]` as in 00_scope.md R9; that they are the codec's six extractions is
the statement DecodeReadsTheFieldsOfTheTwoFormats. -/

namespace Sys2Proof

open Machine

/-- Why a word or a byte string is not an instruction. -/
inductive DecodeError where
  /-- Bits 31:28 are 14 or 15 (R105). The sequencer turns it into the fault `InvalidOpcode` (R135). -/
  | invalidOpcode (opcode : BitVec 4)
  /-- Fewer than four bytes are left: no instruction word (R100, R59). Only a byte string can give it. -/
  | truncated
deriving DecidableEq, Repr

/-- `word[31:28]` (R98, R99). -/
def opcodeField (w : Word) : BitVec 4 := w.extractLsb' 28 4

/-- `word[8:6]` (R98; padding is 27:9 only, 90_conflicts.md C1). -/
def fieldA (w : Word) : Reg := (w.extractLsb' 6 3).toFin

/-- `word[5:3]` (R98). -/
def fieldB (w : Word) : Reg := (w.extractLsb' 3 3).toFin

/-- `word[2:0]` (R98). -/
def fieldC (w : Word) : Reg := (w.extractLsb' 0 3).toFin

/-- `word[27:25]` (R99). -/
def fieldDest (w : Word) : Reg := (w.extractLsb' 25 3).toFin

/-- `word[24:0]` (R99). -/
def fieldValue (w : Word) : BitVec 25 := w.extractLsb' 0 25

/-- `decode(word)`: total, reads no state; opcodes 14 and 15 are tested before the three-register
classification (R101, 90_conflicts.md C3). -/
def decode (w : Word) : Decoded :=
  if opcodeField w = 13 then .loadImmediate (fieldDest w) (fieldValue w)
  else if h : (opcodeField w).toNat < 13 then
    .threeRegister ⟨(opcodeField w).toNat, h⟩ (fieldA w) (fieldB w) (fieldC w)
  else .invalid (opcodeField w)

/-- The opcode map of the three-register format; fields an effect does not name are dropped (R102, R104). -/
def selectThreeRegister (opcode : Fin 13) (a b c : Reg) : Instr :=
  match opcode with
  | 0 => .conditionalMove a b c
  | 1 => .segmentLoad a b c
  | 2 => .segmentStore a b c
  | 3 => .add a b c
  | 4 => .multiply a b c
  | 5 => .divide a b c
  | 6 => .nand a b c
  | 7 => .halt
  | 8 => .mapSegment b c
  | 9 => .unmapSegment c
  | 10 => .output c
  | 11 => .input c
  | 12 => .loadProgram b c

/-- The instruction a decoded word selects (R136); the immediate is zero-extended (R103). -/
def selectInstr : Decoded → Except DecodeError Instr
  | .threeRegister opcode a b c => .ok (selectThreeRegister opcode a b c)
  | .loadImmediate dest value => .ok (.loadImmediate dest (value.setWidth 32))
  | .invalid opcode => .error (.invalidOpcode opcode)

/-- The instruction of a word, or the name of the rejection. -/
def decodeInstr (w : Word) : Except DecodeError Instr := selectInstr (decode w)

/-- The first instruction of a byte string in the binary's byte order, with the bytes after it
(R52, R68, R100). -/
def decodeBytes : List Byte → Except DecodeError (Instr × List Byte)
  | b0 :: b1 :: b2 :: b3 :: rest =>
    match decodeInstr (wordOfBytes b0 b1 b2 b3) with
    | .ok i => .ok (i, rest)
    | .error e => .error e
  | [] | [_] | [_, _] | [_, _, _] => .error .truncated

/-- The word whose bits the table numbers from the least significant (30_encoding.md R100: one word). -/
def tableWord (nbits w : Nat) : Word := BitVec.ofNat 32 (w % 2 ^ nbits)

/-- The decoder on a row of the opcode table. -/
def decodeTableWord (nbits w : Nat) : Option Instr := (decodeInstr (tableWord nbits w)).toOption

/-- `enc3(op, a, b, c)`: four insertions into the zero container (R108). An operand out of its field's range
fails with `OverflowError`. -/
def enc3 (op a b c : Container) : Except CodecError Word := do
  let w ← putUnsigned 0 4 28 op (by decide)
  let w ← putUnsigned w 3 6 a (by decide)
  let w ← putUnsigned w 3 3 b (by decide)
  let w ← putUnsigned w 3 0 c (by decide)
  return w.setWidth 32

/-- `encLI(dest, value)`: three insertions into the zero container (R108). -/
def encLI (dest value : Container) : Except CodecError Word := do
  let w ← putUnsigned 0 4 28 13 (by decide)
  let w ← putUnsigned w 3 25 dest (by decide)
  let w ← putUnsigned w 25 0 value (by decide)
  return w.setWidth 32

/-- A register operand as a field value. -/
def regBits (r : Reg) : Container := BitVec.ofNat 64 r.val

/-- The canonical word of an instruction, all ignored bits 0 (R108, R110; assumption log 28). It fails exactly
on an immediate that does not fit. -/
def encode : Instr → Except CodecError Word
  | .conditionalMove a b c => enc3 0 (regBits a) (regBits b) (regBits c)
  | .segmentLoad a b c => enc3 1 (regBits a) (regBits b) (regBits c)
  | .segmentStore a b c => enc3 2 (regBits a) (regBits b) (regBits c)
  | .add a b c => enc3 3 (regBits a) (regBits b) (regBits c)
  | .multiply a b c => enc3 4 (regBits a) (regBits b) (regBits c)
  | .divide a b c => enc3 5 (regBits a) (regBits b) (regBits c)
  | .nand a b c => enc3 6 (regBits a) (regBits b) (regBits c)
  | .halt => enc3 7 0 0 0
  | .mapSegment b c => enc3 8 0 (regBits b) (regBits c)
  | .unmapSegment c => enc3 9 0 0 (regBits c)
  | .output c => enc3 10 0 0 (regBits c)
  | .input c => enc3 11 0 0 (regBits c)
  | .loadProgram b c => enc3 12 0 (regBits b) (regBits c)
  | .loadImmediate dest value => encLI (regBits dest) (zext64 value)

end Sys2Proof
end

