-- ==== Sys2Proof/Machine/Flags.lean ====
section
/-! DEFINITION. The machine has no status flags, condition codes or predicate registers, and no instruction sets
or reads one (10_state.md R27). What stands in their place are the conditions below, computed from a register's
value inside one cycle and stored nowhere. -/

namespace Sys2Proof.Machine

/-- The test of ConditionalMove, on the whole word (41_move_immediate.md R150). -/
def conditionHolds (w : Word) : Bool := w ≠ 0#32

/-- The ALU's divide-by-zero indication (42_arithmetic_logic.md R165). -/
def divideByZeroIndication (q : Word) : Bool := q = 0#32

/-- Output's first test: the value is the sentinel (45_io.md R220). -/
def isSentinel (w : Word) : Bool := w = sentinel

/-- Output's second test: the value exceeds the byte range (R220). -/
def exceedsByte (w : Word) : Bool := 255 < w.toNat

/-- Control transfers and unmaps test an id against the program segment's (44_control.md R202;
20_memory.md R54). -/
def isProgramSegment (id : Word) : Bool := id = 0#32

end Sys2Proof.Machine
end

