-- ==== Sys2Proof/Machine/Alu.lean ====
section
/-! DEFINITION. The ALU as a unit: four pure functions of two words (42_arithmetic_logic.md R164, R165). -/

namespace Sys2Proof.Machine

/-- `add(p, q) = (p + q) mod 2^32` (R160). -/
def aluAdd (p q : Word) : Word := BitVec.ofNat 32 (p.toNat + q.toNat)

/-- `mul(p, q) = (p * q) mod 2^32`, the low half of the product (R161). -/
def aluMul (p q : Word) : Word := BitVec.ofNat 32 (p.toNat * q.toNat)

/-- `div(p, q) = floor(p / q)`, unsigned; no result when the divide-by-zero indication is given
(R162, 93 G2). -/
def aluDiv (p q : Word) : Option Word :=
  if divideByZeroIndication q then none else some (BitVec.ofNat 32 (p.toNat / q.toNat))

/-- `nand(p, q) = ~(p & q)` (R163). -/
def aluNand (p q : Word) : Word := ~~~(p &&& q)

end Sys2Proof.Machine
end

