-- ==== Sys2Proof/Machine/State.lean ====
section
/-! DEFINITION. The state of the block, exactly the list of 10_state.md R20 with the host's input stream beside
it (R33, R37), its value after reset (R36), and the two ways the MODEL stops. -/

namespace Sys2Proof.Machine

/-- A segment: "a fixed-length, mutable array of words", indexed from 0 (R12, R30). -/
abbrev Segment := List Word

/-- The map `seg` from mapped segment ids to segments (R30), as the list of its entries in ONE canonical form:
ids strictly rising (`Memory.wf`, Machine/Ops.lean; assumption log 1). -/
abbrev Memory := List (Word × Segment)

/-- The segment table with its free-id pool (R2 (d), R30, R31). -/
structure SegTable where
  /-- The mapped segments. -/
  seg : Memory
  /-- The free-id pool; the head is the id freed last (R31). -/
  free : List Word
  /-- The number of distinct ids ever issued, `1 .. 2^32` (R31, R32). -/
  nextId : Nat
deriving DecidableEq, Repr

/-- The run state (R26). -/
inductive RunState where
  /-- One instruction per cycle. -/
  | running
  /-- Terminal; entered by opcode 7 only. -/
  | halted
  /-- Terminal; entered when a cycle starts with `pc >= len(0)` (R132). -/
  | ended
  /-- Terminal; entered by a fault (R241). -/
  | faulted (f : FatalFault)
deriving DecidableEq, Repr

/-- The whole state (R20). -/
structure State where
  /-- The register file `x[0..7]` (R21). -/
  regs : Vector Word 8
  /-- The program counter, a word index into segment 0 (R23). -/
  pc : Word
  /-- The run state (R26). -/
  run : RunState
  /-- The segment table (R30, R31). -/
  table : SegTable
  /-- The input stream `IN`, complete before the run; no step changes it (R33, D20; assumption log 3). -/
  input : List Byte
  /-- `in_pos`: the bytes consumed (R33). -/
  inPos : Nat
  /-- `out`: the bytes written so far (R34). -/
  out : List Byte
deriving DecidableEq, Repr

/-- The ways the MODEL stops with a fault. The machine's own seven faults are not here: they are run states. -/
inductive Fault where
  /-- Raised by the fetch of a `Running` cycle when segment 0 is unmapped, where `len(0)` has no value and the
  spec gives no effect because no run reaches such a state (R30, R133). Safe (assumption log 6). -/
  | programSegmentUnmapped
deriving DecidableEq, Repr

/-- The ways the model refuses. -/
inductive Refusal where
  /-- Raised by an arm of `exec` whose instruction has no meaning yet; no arm does. Safe. -/
  | notModelled (mnemonic : String)
deriving DecidableEq, Repr

/-- The state after reset with program `PROG` and input stream `IN` (R36, R280). -/
def State.resetWith (prog : List Word) (input : List Byte) : State :=
  { regs := Vector.replicate 8 0#32
    pc := 0#32
    run := .running
    table := { seg := [(0#32, prog)], free := [], nextId := 1 }
    input := input
    inPos := 0
    out := [] }

/-- The machine right after reset with nothing placed: the parameters `PROG` and `IN` are empty, a legal program
(R68) and a legal stream (assumption logs 2 and 3). -/
def State.reset : State := State.resetWith [] []

end Sys2Proof.Machine
end

