-- ==== Sys2Proof/Machine/Operands.lean ====
section
/-! DEFINITION. The operand forms: a register read, a register written, the 25-bit immediate, and the two
effective addresses (10_state.md R21, R22; 30_encoding.md R103; 43_segment_access.md R180, R181). There is no other
operand form and no addressing mode with an update. -/

namespace Sys2Proof.Machine

/-- `x[i]` (00_scope.md R10). No register is hard-wired (R21). -/
def State.reg (s : State) (i : Reg) : Word := s.regs[i.val]

/-- `x[i] <- v` (R10): the whole register is replaced. -/
def State.setReg (s : State) (i : Reg) (v : Word) : State := { s with regs := s.regs.set i.val v }

/-- The immediate of LoadImmediate, already zero-extended by the decoder (R103). -/
def immediate (value : Word) : Word := value

/-- The address SegmentLoad reads, `(x[b], x[c])` (R180). -/
def loadAddress (s : State) (b c : Reg) : Word × Word := (s.reg b, s.reg c)

/-- The address SegmentStore writes, `(x[a], x[b])` (R181). -/
def storeAddress (s : State) (a b : Reg) : Word × Word := (s.reg a, s.reg b)

end Sys2Proof.Machine
end

