-- ==== Sys2Proof/Machine/Ops.lean ====
section
/-! DEFINITION. The operations every instruction is written over: the memory's map, the six operations of the
segment table (20_memory.md R53 to R58), the byte streams (10_state.md R33, R34), the program counter's step
(R24), raising a fault (60_exceptions.md R241), and the fetch (40_sequencer.md R132, R133). -/

namespace Sys2Proof.Machine

/-! ## The map of mapped segments -/

/-- The canonical form: ids strictly rising, so that equal memories are equal lists. -/
abbrev Memory.wf (m : Memory) : Prop := m.Pairwise fun p q => p.1.toNat < q.1.toNat

/-- What an address that no entry covers reads as: it does not exist (R50), so no value. -/
def unlistedCell : Option Word := none

/-- The segment with an id: `none` means unmapped, freed or never issued alike (R12, R30). -/
def Memory.find : Memory → Word → Option Segment
  | [], _ => none
  | (k, seg) :: rest, id => if k = id then some seg else Memory.find rest id

/-- `seg[id] <- words`: the entry is put in its place, or replaced. -/
def Memory.insert : Memory → Word → Segment → Memory
  | [], id, words => [(id, words)]
  | (k, seg) :: rest, id, words =>
    if id = k then (id, words) :: rest
    else if id.toNat < k.toNat then (id, words) :: (k, seg) :: rest
    else (k, seg) :: Memory.insert rest id words

/-- Remove `id` from the map. -/
def Memory.erase (m : Memory) (id : Word) : Memory := m.filter fun p => p.1 ≠ id

/-! ## The segment table -/

/-- The segment with an id, if mapped. -/
def SegTable.segment (t : SegTable) (id : Word) : Option Segment := Memory.find t.seg id

/-- `mapped(id)` (00_scope.md R10). -/
def SegTable.mapped (t : SegTable) (id : Word) : Bool := (t.segment id).isSome

/-- `len(id)` in words, of a mapped segment (R10). -/
def SegTable.len (t : SegTable) (id : Word) : Option Nat := (t.segment id).map List.length

/-- The cell at an address; no value where the address names none (R50). -/
def SegTable.cell (t : SegTable) (id off : Word) : Option Word :=
  match t.segment id with
  | none => unlistedCell
  | some words => words[off.toNat]?

/-- `MemRead((id, off), 1)`: the mapped check comes first (R55). -/
def SegTable.memRead (t : SegTable) (id off : Word) : Except FatalFault Word :=
  match t.segment id with
  | none => .error (.unmappedAccess id)
  | some words =>
    match words[off.toNat]? with
    | none => .error (.outOfBounds id off)
    | some v => .ok v

/-- `MemWrite((id, off), 1, v)`: one cell changes, no length does (R56). -/
def SegTable.memWrite (t : SegTable) (id off v : Word) : Except FatalFault SegTable :=
  match t.segment id with
  | none => .error (.unmappedAccess id)
  | some words =>
    if words.length ≤ off.toNat then .error (.outOfBounds id off)
    else .ok { t with seg := Memory.insert t.seg id (words.set off.toNat v) }

/-- `SegAlloc(n)`: the id freed last, else a fresh one; `n` zero words either way (R53, R69). The fault is for
an empty pool and no fresh id left (R70); `next_id` is never above `2^32` (R32), so the test is the spec's `=`. -/
def SegTable.segAlloc (t : SegTable) (n : Word) : Except FatalFault (Word × SegTable) :=
  match t.free with
  | i :: rest => .ok (i, { t with seg := Memory.insert t.seg i (List.replicate n.toNat 0#32), free := rest })
  | [] =>
    if 2 ^ 32 ≤ t.nextId then .error .segmentIdExhausted
    else
      let i : Word := BitVec.ofNat 32 t.nextId
      .ok (i, { t with seg := Memory.insert t.seg i (List.replicate n.toNat 0#32), nextId := t.nextId + 1 })

/-- `SegFree(id)`: the id becomes unmapped and heads the pool (R54, D5). -/
def SegTable.segFree (t : SegTable) (id : Word) : Except FatalFault SegTable :=
  if isProgramSegment id then .error .unmapSegmentZero
  else if t.mapped id then .ok { t with seg := Memory.erase t.seg id, free := id :: t.free }
  else .error (.unmappedAccess id)

/-- `SegReplaceProgram(id)`: segment 0 becomes a copy of segment `id`; nothing for id 0 (R57, D12). -/
def SegTable.segReplaceProgram (t : SegTable) (id : Word) : Except FatalFault SegTable :=
  if isProgramSegment id then .ok t
  else
    match t.segment id with
    | none => .error (.unmappedAccess id)
    | some words => .ok { t with seg := Memory.insert t.seg 0#32 words }

/-- `SegReleaseAll()`: the map and the pool are emptied, `next_id` keeps its value (R58). -/
def SegTable.segReleaseAll (t : SegTable) : SegTable := { t with seg := [], free := [] }

/-! ## The byte streams -/

/-- `InByte()`: the next byte, or `none` for end-of-stream, which is permanent (R33, D8). -/
def State.inByte (s : State) : Option Byte × State :=
  match s.input[s.inPos]? with
  | some b => (some b, { s with inPos := s.inPos + 1 })
  | none => (none, s)

/-- `OutByte(b)`: always succeeds (R34, D9). -/
def State.outByte (s : State) (b : Byte) : State := { s with out := s.out ++ [b] }

/-! ## Control -/

/-- `pc <- t`. -/
def State.setPc (s : State) (t : Word) : State := { s with pc := t }

/-- `pc <- pc + 1` (R24). It never wraps in a state a run reaches (R25, assumption log 22). -/
def State.advance (s : State) : State := s.setPc (s.pc + 1#32)

/-- The segment table takes a new value. -/
def State.setTable (s : State) (t : SegTable) : State := { s with table := t }

/-- The run state takes a new value. -/
def State.setRun (s : State) (r : RunState) : State := { s with run := r }

/-- `raise F(info)`: the one operation that takes a fault. The run state becomes `Faulted`, nothing else changes,
`pc` stays at the faulting instruction, and there is no handler to go to and no return
(60_exceptions.md R241, R243, R244, R245; D7). -/
def raise (f : FatalFault) (s : State) : Host.Outcome State Fault Refusal := .next (s.setRun (.faulted f))

/-- What the start of a cycle finds. -/
inductive Fetch where
  /-- The word at `(0, pc)` (R133). -/
  | word (w : Word)
  /-- `pc >= len(0)` (R132). -/
  | endOfProgram
  /-- A fault of the read; it cannot occur (R133). -/
  | readFault (f : FatalFault)
  /-- Segment 0 is unmapped, so that `len(0)` has no value; no run reaches it (R30). -/
  | noProgramSegment
deriving DecidableEq, Repr

/-- The end-of-program test and the fetch (R132, R133). -/
def State.fetch (s : State) : Fetch :=
  match s.table.len 0#32 with
  | none => .noProgramSegment
  | some n =>
    if n ≤ s.pc.toNat then .endOfProgram
    else
      match s.table.memRead 0#32 s.pc with
      | .ok w => .word w
      | .error f => .readFault f

end Sys2Proof.Machine
end

