-- ==== Sys2Proof/Machine/Arith.lean ====
section
/-! DEFINITION. Arithmetic and logic: Add, Multiply, Divide, Nand (42_arithmetic_logic.md). Sources are read
before the destination is written (10_state.md R22). -/

namespace Sys2Proof.Machine

/-- Add (opcode 3, R160). -/
def execAdd (a b c : Reg) (s : State) : Host.Outcome State Fault Refusal :=
  .next (s.setReg a (aluAdd (s.reg b) (s.reg c))).advance

/-- Multiply (opcode 4, R161). -/
def execMultiply (a b c : Reg) (s : State) : Host.Outcome State Fault Refusal :=
  .next (s.setReg a (aluMul (s.reg b) (s.reg c))).advance

/-- Divide (opcode 5, R162): the divisor is tested before anything is written. -/
def execDivide (a b c : Reg) (s : State) : Host.Outcome State Fault Refusal :=
  match aluDiv (s.reg b) (s.reg c) with
  | some q => .next (s.setReg a q).advance
  | none => raise .divideByZero s

/-- Nand (opcode 6, R163). -/
def execNand (a b c : Reg) (s : State) : Host.Outcome State Fault Refusal :=
  .next (s.setReg a (aluNand (s.reg b) (s.reg c))).advance

end Sys2Proof.Machine
end

