-- ==== Sys2Proof/Machine/Control.lean ====
section
/-! DEFINITION. Control: Halt and LoadProgram (44_control.md). -/

namespace Sys2Proof.Machine

/-- Halt (opcode 7, R200): registers and `pc` keep their values (R201, D19; assumption log 23). -/
def execHalt (s : State) : Host.Outcome State Fault Refusal :=
  .next ((s.setTable s.table.segReleaseAll).setRun .halted)

/-- LoadProgram (opcode 12, R202): the fault is tested first, then the copy, then `pc <- x[c]`. With `x[b] = 0`
nothing is copied (R57). -/
def execLoadProgram (b c : Reg) (s : State) : Host.Outcome State Fault Refusal :=
  match s.table.segReplaceProgram (s.reg b) with
  | .ok t => .next ((s.setTable t).setPc (s.reg c))
  | .error f => raise f s

end Sys2Proof.Machine
end

