-- ==== Sys2Proof/Machine/Io.lean ====
section
/-! DEFINITION. Input and output: Output and Input (45_io.md). -/

namespace Sys2Proof.Machine

/-- Output (opcode 10, R220): the sentinel writes nothing, a byte value is appended, anything else faults. -/
def execOutput (c : Reg) (s : State) : Host.Outcome State Fault Refusal :=
  let v := s.reg c
  if isSentinel v then .next s.advance
  else if exceedsByte v then raise (.outputRange v) s
  else .next (s.outByte (v.setWidth 8)).advance

/-- Input (opcode 11, R221): the next byte zero-extended, or the sentinel at end-of-stream. -/
def execInput (c : Reg) (s : State) : Host.Outcome State Fault Refusal :=
  match s.inByte with
  | (some b, t) => .next (t.setReg c (b.setWidth 32)).advance
  | (none, t) => .next (t.setReg c sentinel).advance

end Sys2Proof.Machine
end

