-- ==== Sys2Proof/Machine/Move.lean ====
section
/-! DEFINITION. Register moves: ConditionalMove and LoadImmediate (41_move_immediate.md). -/

namespace Sys2Proof.Machine

/-- ConditionalMove (opcode 0, R150). -/
def execConditionalMove (a b c : Reg) (s : State) : Host.Outcome State Fault Refusal :=
  if conditionHolds (s.reg c) then .next (s.setReg a (s.reg b)).advance else .next s.advance

/-- LoadImmediate (opcode 13, R151): the whole register is replaced. -/
def execLoadImmediate (dest : Reg) (value : Word) (s : State) : Host.Outcome State Fault Refusal :=
  .next (s.setReg dest (immediate value)).advance

end Sys2Proof.Machine
end

