-- ==== Sys2Proof/Machine/SegmentAccess.lean ====
section
/-! DEFINITION. Segment access: SegmentLoad, SegmentStore, MapSegment, UnmapSegment (43_segment_access.md). -/

namespace Sys2Proof.Machine

/-- SegmentLoad (opcode 1, R180). -/
def execSegmentLoad (a b c : Reg) (s : State) : Host.Outcome State Fault Refusal :=
  match s.table.memRead (loadAddress s b c).1 (loadAddress s b c).2 with
  | .ok v => .next (s.setReg a v).advance
  | .error f => raise f s

/-- SegmentStore (opcode 2, R181): `a` names the segment, `b` the offset, `c` the value. -/
def execSegmentStore (a b c : Reg) (s : State) : Host.Outcome State Fault Refusal :=
  match s.table.memWrite (storeAddress s a b).1 (storeAddress s a b).2 (s.reg c) with
  | .ok t => .next (s.setTable t).advance
  | .error f => raise f s

/-- MapSegment (opcode 8, R182): the length is read before the register receives the id. -/
def execMapSegment (b c : Reg) (s : State) : Host.Outcome State Fault Refusal :=
  match s.table.segAlloc (s.reg c) with
  | .ok (i, t) => .next ((s.setTable t).setReg b i).advance
  | .error f => raise f s

/-- UnmapSegment (opcode 9, R183). -/
def execUnmapSegment (c : Reg) (s : State) : Host.Outcome State Fault Refusal :=
  match s.table.segFree (s.reg c) with
  | .ok t => .next (s.setTable t).advance
  | .error f => raise f s

end Sys2Proof.Machine
end

