-- ==== Sys2Proof/Machine/Dispatch.lean ====
section
/-! DEFINITION. The instruction's own rule: `execute(insn)` of the cycle (40_sequencer.md R131, R136), one arm per
constructor of `Instr`. -/

namespace Sys2Proof.Machine

def exec (i : Instr) (s : State) : Host.Outcome State Fault Refusal :=
  match i with
  | .conditionalMove a b c => Sys2Proof.Machine.execConditionalMove a b c s
  | .segmentLoad a b c => Sys2Proof.Machine.execSegmentLoad a b c s
  | .segmentStore a b c => Sys2Proof.Machine.execSegmentStore a b c s
  | .add a b c => Sys2Proof.Machine.execAdd a b c s
  | .multiply a b c => Sys2Proof.Machine.execMultiply a b c s
  | .divide a b c => Sys2Proof.Machine.execDivide a b c s
  | .nand a b c => Sys2Proof.Machine.execNand a b c s
  | .halt => Sys2Proof.Machine.execHalt s
  | .mapSegment b c => Sys2Proof.Machine.execMapSegment b c s
  | .unmapSegment c => Sys2Proof.Machine.execUnmapSegment c s
  | .output c => Sys2Proof.Machine.execOutput c s
  | .input c => Sys2Proof.Machine.execInput c s
  | .loadProgram b c => Sys2Proof.Machine.execLoadProgram b c s
  | .loadImmediate dest value => Sys2Proof.Machine.execLoadImmediate dest value s

end Sys2Proof.Machine
end

