-- ==== Sys2Proof/Machine/Cycle.lean ====
section
/-! DEFINITION. One cycle of the sequencer, in a `Running` state (40_sequencer.md R131 to R137), and how a word is
placed for the next fetch. -/

namespace Sys2Proof.Machine

/-- `cycle()`: end-of-program test, fetch, decode, then the instruction's own rule; the first that ends the cycle
wins (R131, R137). -/
def cycle (s : State) : Host.Outcome State Fault Refusal :=
  match s.fetch with
  | .noProgramSegment => .fault .programSegmentUnmapped
  | .endOfProgram => .next (s.setRun .ended)
  | .readFault f => raise f s
  | .word w =>
    match decodeInstr w with
    | .ok i => exec i s
    | .error _ => raise (.invalidOpcode w) s

/-- What the sequencer does in a state: a cycle while `Running`; in a terminal run state no cycle is defined and
"the state stays as it is" (R131, R26; assumption log 4). -/
def advanceSequencer (s : State) : Host.Outcome State Fault Refusal :=
  match s.run with
  | .running => cycle s
  | .halted | .ended | .faulted _ => .next s

/-- A program with word `w` at index `k`, lengthened with zeros where it is too short. -/
def placeWord (prog : List Word) (k : Nat) (w : Word) : List Word :=
  (prog ++ List.replicate (k + 1 - prog.length) 0#32).set k w

/-- Segment 0 with `w` at `pc`, the run state `Running`: all that the next fetch needs (assumption log 24). -/
def loadAtPc (s : State) (w : Word) : State :=
  (s.setTable { s.table with
    seg := Memory.insert s.table.seg 0#32 (placeWord ((s.table.segment 0#32).getD []) s.pc.toNat w) }).setRun .running

end Sys2Proof.Machine
end

