-- ==== Sys2Proof/Machine/Step.lean ====
section
/-! DEFINITION. The step of the machine (40_sequencer.md R131) and the host's way to place an instruction word. -/

namespace Sys2Proof.Machine

/-- One step. -/
def step (s : State) : Host.Outcome State Fault Refusal := advanceSequencer s

/-- The state with an instruction word stored at `(0, pc)`, where the next cycle fetches (R133). -/
def State.withFetchWord (s : State) (nbits w : Nat) : State := loadAtPc s (tableWord nbits w)

end Sys2Proof.Machine
end

