-- ==== Sys2Proof/Machine/HostInterface.lean ====
section
/-! DEFINITION. The block's transaction-level interfaces to the host (10_state.md R38): the program binary and
reset (20_memory.md R52, R59, R68; 70_reset_and_hazards.md R280, R282, R283), and the status reported outward
(10_state.md R26; 60_exceptions.md R242). -/

namespace Sys2Proof.Machine

/-- The words of a binary, most significant byte first; `none` when its size is not a multiple of 4
(R52, R59, D10). -/
def wordsOfBinary : List Byte → Option (List Word)
  | [] => some []
  | b0 :: b1 :: b2 :: b3 :: rest => (wordsOfBinary rest).map (wordOfBytes b0 b1 b2 b3 :: ·)
  | [_] | [_, _] | [_, _, _] => none

/-- A binary the loader accepts, as `PROG`: whole words, at most `2^32 - 1` of them (R7, R283, D3, D10;
assumption log 19). -/
def loadBinary (bytes : List Byte) : Option (List Word) :=
  match wordsOfBinary bytes with
  | some prog => if prog.length < 2 ^ 32 then some prog else none
  | none => none

/-- `reset(bytes)` with an input stream: no state exists for a binary the loader refuses (R280, U12). -/
def boot (bytes input : List Byte) : Option State :=
  (loadBinary bytes).map fun prog => State.resetWith prog input

/-- The host's reset of a block in any run state: nothing carries over (R282, D21). -/
def State.hostReset (_s : State) (bytes input : List Byte) : Option State := boot bytes input

/-- The exit status a run state reports: none while `Running`, 0 for the two normal endings, `FAULT_STATUS` for a
fault (R26, R132, R242). -/
def RunState.exitStatus : RunState → Option Nat
  | .running => none
  | .halted => some 0
  | .ended => some 0
  | .faulted _ => some Config.faultStatus

/-- The diagnostic a run state reports: `DIAG` of the fault, else none (R38, R242). -/
def RunState.diagnostic : RunState → Option String
  | .running | .halted | .ended => none
  | .faulted f => some (Config.diag f)

/-- What the host sees of a state (R35): the output, how much input was consumed, and the status. The run state is
among it, as R35 and R38 (6) say, so that the view tells `Ended` from `Halted`, where 70_reset_and_hazards.md R284
says that a host could see no difference (DESIGN CHOICE, assumption log 29). -/
structure HostView where
  /-- The bytes written. -/
  out : List Byte
  /-- The input bytes consumed. -/
  consumed : Nat
  /-- The run state. -/
  run : RunState
  /-- The exit status, on a terminal state. -/
  exitStatus : Option Nat
  /-- The diagnostic, on a fault. -/
  diagnostic : Option String
deriving DecidableEq, Repr

/-- The host's view of a state (R35, R38). The host's order of output against input is not in it (U8, assumption
log 25). It shows the run state, against R284 (DESIGN CHOICE, assumption log 29). -/
def State.hostView (s : State) : HostView :=
  { out := s.out, consumed := s.inPos, run := s.run, exitStatus := s.run.exitStatus, diagnostic := s.run.diagnostic }

end Sys2Proof.Machine
end

