-- ==== Sys2Proof/Safety.lean ====
section
/-! DEFINITION. What counts as a sound state and as a safe run, in the terms the claims use. -/

namespace Sys2Proof.Machine

/-- The invariants of the state: those of 10_state.md R32, the canonical form of the map, the segment lengths of
00_scope.md R8, and the stream position of R33. R32's clause that every issued id is mapped or free is false after
Halt, which empties both (20_memory.md R58), so it is asked of every other run state (assumption log 17). -/
structure State.Inv (s : State) : Prop where
  /-- Ids strictly rising: one list per memory. -/
  canonical : Memory.wf s.table.seg
  /-- A segment has at most `2^32 - 1` words (R8). -/
  lengths : ∀ id words, s.table.segment id = some words → words.length < 2 ^ 32
  /-- Every id in the pool is unmapped (R32). -/
  freeUnmapped : ∀ id ∈ s.table.free, s.table.segment id = none
  /-- No pool id is 0 (R32). -/
  freeNonzero : 0#32 ∉ s.table.free
  /-- Every pool id was issued (R32). -/
  freeIssued : ∀ id ∈ s.table.free, id.toNat < s.table.nextId
  /-- A pool id occurs once (R32). -/
  freeOnce : s.table.free.Nodup
  /-- An id not yet issued is unmapped (R32). -/
  freshUnmapped : ∀ id : Word, s.table.nextId ≤ id.toNat → s.table.segment id = none
  /-- An issued id is mapped or in the pool (R32), but after Halt (log 17). -/
  issuedAccounted : s.run ≠ .halted → ∀ id : Word, id.toNat < s.table.nextId →
    (s.table.segment id).isSome ∨ id ∈ s.table.free
  /-- Segment 0 is mapped while `Running` (R30, R32). -/
  programMapped : s.run = .running → (s.table.segment 0#32).isSome
  /-- `1 <= next_id <= 2^32` (R32). -/
  nextIdRange : 1 ≤ s.table.nextId ∧ s.table.nextId ≤ 2 ^ 32
  /-- No more bytes are consumed than the stream has (R33). -/
  consumedRange : s.inPos ≤ s.input.length

/-- `k` steps of the machine answer a state: no stop of the model. -/
def runsFor (k : Nat) (s t : State) : Prop := Host.Core.run Sys2Proof.core k s = .next t

/-- A terminal run state (R26). -/
def RunState.terminal : RunState → Bool
  | .running => false
  | .halted | .ended | .faulted _ => true

/-- The run ended without a fault (R26, R132: exit status 0). -/
def RunState.success : RunState → Bool
  | .halted | .ended => true
  | .running | .faulted _ => false

/-- A run of any length from `s` never stops the model. -/
def neverStops (s : State) : Prop := ∀ k, ∃ t, runsFor k s t

end Sys2Proof.Machine
end

