-- ==== Sys2Proof/Certificates/Slice0/Obligations.lean ====
section
/-! DEFINITION. The statements for the provers. Each is a rule of spec/ (or what several rules give together) said
of the model; the words the statements share stand first. -/

namespace Sys2Proof.Claims

open Sys2Proof.Machine

/-! ## Words shared by the statements -/

/-- The word with opcode `op`, ignored bits 27:9 holding `pad`, and the three register fields (R98). -/
def threeRegisterWord (op pad : Nat) (a b c : Reg) : Word :=
  BitVec.ofNat 32 (op * 2 ^ 28 + pad * 2 ^ 9 + a.val * 64 + b.val * 8 + c.val)

/-- The word of LoadImmediate with its two fields (R99). -/
def loadImmediateWord (dest : Reg) (value : Nat) : Word :=
  BitVec.ofNat 32 (13 * 2 ^ 28 + dest.val * 2 ^ 25 + value)

/-- Every word with this opcode and these register fields is the instruction, whatever bits 27:9 hold. -/
def DecodesAs (op : Nat) (a b c : Reg) (i : Instr) : Prop :=
  ∀ pad, pad < 2 ^ 19 → decodeInstr (threeRegisterWord op pad a b c) = .ok i

/-- No register changed. -/
def RegistersKept (s t : State) : Prop := ∀ r, t.reg r = s.reg r

/-- No register but one changed. -/
def RegistersKeptBut (a : Reg) (s t : State) : Prop := ∀ r, r ≠ a → t.reg r = s.reg r

/-- Every address reads as before, and so does every length: no cell appeared, vanished or changed. -/
def MemoryKept (s t : State) : Prop :=
  (∀ id off, t.table.cell id off = s.table.cell id off) ∧ ∀ id, t.table.len id = s.table.len id

/-- The whole segment table is as before: memory, the free-id pool and the count of issued ids. -/
def TableKept (s t : State) : Prop :=
  MemoryKept s t ∧ t.table.free = s.table.free ∧ t.table.nextId = s.table.nextId

/-- Neither stream moved. -/
def StreamsKept (s t : State) : Prop := t.input = s.input ∧ t.inPos = s.inPos ∧ t.out = s.out

/-- The instruction completes, puts `v` in register `a`, steps the program counter and changes nothing else. -/
def WritesRegister (i : Instr) (a : Reg) (v : Word) (s : State) : Prop :=
  ∃ t, exec i s = .next t ∧ t.reg a = v ∧ t.pc = s.pc + 1#32 ∧ t.run = s.run ∧
    RegistersKeptBut a s t ∧ TableKept s t ∧ StreamsKept s t

/-- The instruction completes and changes nothing but the program counter, which becomes `target`. -/
def OnlyMovesPc (i : Instr) (target : Word) (s : State) : Prop :=
  ∃ t, exec i s = .next t ∧ t.pc = target ∧ t.run = s.run ∧
    RegistersKept s t ∧ TableKept s t ∧ StreamsKept s t

/-- Only the run state changed, and it became `Faulted(f)` (R241). -/
def FaultedFrom (f : FatalFault) (s t : State) : Prop :=
  t.run = .faulted f ∧ t.pc = s.pc ∧ RegistersKept s t ∧ TableKept s t ∧ StreamsKept s t

/-- The instruction raises the fault. -/
def Faults (i : Instr) (f : FatalFault) (s : State) : Prop := ∃ t, exec i s = .next t ∧ FaultedFrom f s t

/-- Segment `id` is `n` zero words in `t`, and every other segment is as in `s`. -/
def NewSegment (id : Word) (n : Nat) (s t : State) : Prop :=
  t.table.len id = some n ∧ (∀ off : Word, off.toNat < n → t.table.cell id off = some 0#32) ∧
    (∀ k, k ≠ id → t.table.len k = s.table.len k ∧ ∀ off, t.table.cell k off = s.table.cell k off)

/-- The registers an instruction reads in a state (10_state.md R22, column "reads"). -/
def readsOf (s : State) : Instr → List Reg
  | .conditionalMove _ b c => if s.reg c = 0#32 then [c] else [b, c]
  | .segmentLoad _ b c => [b, c]
  | .segmentStore a b c => [a, b, c]
  | .add _ b c => [b, c]
  | .multiply _ b c => [b, c]
  | .divide _ b c => [b, c]
  | .nand _ b c => [b, c]
  | .halt => []
  | .mapSegment _ c => [c]
  | .unmapSegment c => [c]
  | .output c => [c]
  | .input _ => []
  | .loadProgram b c => [b, c]
  | .loadImmediate _ _ => []

/-- The register an instruction writes in a state, when it does not fault (R22, column "writes"). -/
def writesOf (s : State) : Instr → List Reg
  | .conditionalMove a _ c => if s.reg c = 0#32 then [] else [a]
  | .segmentLoad a _ _ => [a]
  | .segmentStore _ _ _ => []
  | .add a _ _ => [a]
  | .multiply a _ _ => [a]
  | .divide a _ _ => [a]
  | .nand a _ _ => [a]
  | .halt => []
  | .mapSegment b _ => [b]
  | .unmapSegment _ => []
  | .output _ => []
  | .input c => [c]
  | .loadProgram _ _ => []
  | .loadImmediate dest _ => [dest]

/-- The word at `(0, pc)` is an instruction. -/
def Fetches (s : State) (i : Instr) : Prop := ∃ w, s.table.cell 0#32 s.pc = some w ∧ decodeInstr w = .ok i

/-- Segment `id` is not mapped. -/
def Unmapped (s : State) (id : Word) : Prop := s.table.segment id = none

/-- The offset is not below the length of a mapped segment. -/
def PastTheEnd (s : State) (id off : Word) : Prop := ∃ n, s.table.len id = some n ∧ n ≤ off.toNat

/-- The condition of each fault, by the instruction at `(0, pc)` (60_exceptions.md R240). -/
def CycleFaults (s : State) : FatalFault → Prop
  | .invalidOpcode w => s.table.cell 0#32 s.pc = some w ∧ 14 ≤ w.toNat / 2 ^ 28
  | .unmappedAccess id => Unmapped s id ∧
      ((∃ a b c, Fetches s (.segmentLoad a b c) ∧ s.reg b = id) ∨
       (∃ a b c, Fetches s (.segmentStore a b c) ∧ s.reg a = id) ∨
       (∃ c, Fetches s (.unmapSegment c) ∧ s.reg c = id ∧ id ≠ 0#32) ∨
       (∃ b c, Fetches s (.loadProgram b c) ∧ s.reg b = id ∧ id ≠ 0#32))
  | .outOfBounds id off => PastTheEnd s id off ∧
      ((∃ a b c, Fetches s (.segmentLoad a b c) ∧ s.reg b = id ∧ s.reg c = off) ∨
       (∃ a b c, Fetches s (.segmentStore a b c) ∧ s.reg a = id ∧ s.reg b = off))
  | .divideByZero => ∃ a b c, Fetches s (.divide a b c) ∧ s.reg c = 0#32
  | .outputRange v => (256 ≤ v.toNat ∧ v.toNat ≤ 0xFFFFFFFE) ∧ ∃ c, Fetches s (.output c) ∧ s.reg c = v
  | .unmapSegmentZero => ∃ c, Fetches s (.unmapSegment c) ∧ s.reg c = 0#32
  | .segmentIdExhausted => (s.table.free = [] ∧ s.table.nextId = 2 ^ 32) ∧
      ∃ b c, Fetches s (.mapSegment b c)

/-- The bits of a word that select an instruction with this opcode and its operands (R102 "fields used"). -/
def usedBits : Nat → List Nat
  | 0 | 1 | 2 | 3 | 4 | 5 | 6 => [31, 30, 29, 28, 8, 7, 6, 5, 4, 3, 2, 1, 0]
  | 7 => [31, 30, 29, 28]
  | 8 | 12 => [31, 30, 29, 28, 5, 4, 3, 2, 1, 0]
  | 9 | 10 | 11 => [31, 30, 29, 28, 2, 1, 0]
  | _ => List.range 32

end Sys2Proof.Claims

open Sys2Proof Sys2Proof.Machine Sys2Proof.Claims

/-! ## The bit-field codec (30_encoding.md section 1) -/

/-- R91. The width 0, width 64 and boundary clauses are the rule's own. -/
def Obligations.FitsUnsignedIsBelowTwoToTheWidth : Prop :=
  (∀ (v : Container) (w : Nat) (h : w ≤ 64), fitsUnsigned v w h = true ↔ v.toNat < 2 ^ w) ∧
  (∀ v : Container, fitsUnsigned v 0 (by decide) = true ↔ v = 0#64) ∧
  (∀ v : Container, fitsUnsigned v 64 (by decide) = true) ∧
  (∀ (w : Nat) (h : w ≤ 63), 1 ≤ w →
    fitsUnsigned (BitVec.ofNat 64 (2 ^ w - 1)) w (Nat.le_succ_of_le h) = true ∧
    fitsUnsigned (BitVec.ofNat 64 (2 ^ w)) w (Nat.le_succ_of_le h) = false)

/-- R93, with its reading as `word[lsb+w-1 : lsb]` bit by bit. The clause on width 0 is an inference the spec marks
as its own (R93: "[derived: from rule R97]"); the formula implies it. -/
def Obligations.GetUnsignedReadsTheField : Prop :=
  ∀ (word : Container) (width lsb : Nat) (h : width + lsb ≤ 64),
    (getUnsigned word width lsb h).toNat = word.toNat / 2 ^ lsb % 2 ^ width ∧
    (getUnsigned word width lsb h).toNat < 2 ^ width ∧
    (∀ k, (getUnsigned word width lsb h).getLsbD k = (decide (k < width) && word.getLsbD (lsb + k))) ∧
    (width = 0 → getUnsigned word width lsb h = 0#64)

/-- R95: the failure, the field and the bits outside it. -/
def Obligations.PutUnsignedReplacesTheFieldOrFails : Prop :=
  ∀ (word value : Container) (width lsb : Nat) (h : width + lsb ≤ 64),
    (2 ^ width ≤ value.toNat → putUnsigned word width lsb value h = .error .overflowError) ∧
    (value.toNat < 2 ^ width → ∃ w, putUnsigned word width lsb value h = .ok w ∧
      ∀ k, w.getLsbD k =
        if lsb ≤ k ∧ k < lsb + width then value.getLsbD (k - lsb) else word.getLsbD k)

/-- The codec's round-trip property, as R97 quotes it from the source. -/
def Obligations.GetAfterPutUnsignedIsTheValue : Prop :=
  ∀ (word value : Container) (width lsb : Nat) (h : width + lsb ≤ 64), 1 ≤ width →
    fitsUnsigned value width (Nat.le_of_add_right_le h) = true →
    ∃ w, putUnsigned word width lsb value h = .ok w ∧ getUnsigned w width lsb h = value ∧
      ∀ k, k < lsb ∨ lsb + width ≤ k → w.getLsbD k = word.getLsbD k

/-- R92, R94, R96 for widths 1 to 64: the signed range, the reading of a field, the bits stored, the round trip, the
failure. Width 0 is left free (U2), so nothing is said of it. That `put_signed` stores the value modulo `2^width` is
general knowledge the spec marks so (93 G3): PRESUMED, assumption log 21. -/
def Obligations.SignedFieldsRoundTrip : Prop :=
  ∀ (word value : Container) (width lsb : Nat) (h : width + lsb ≤ 64), 1 ≤ width →
    (fitsSigned value width (Nat.le_of_add_right_le h) = true ↔
      -(2 : Int) ^ (width - 1) ≤ value.toInt ∧ value.toInt ≤ 2 ^ (width - 1) - 1) ∧
    (fitsSigned value width (Nat.le_of_add_right_le h) = true →
      ∃ w, putSigned word width lsb value h = .ok w ∧ getSigned w width lsb h = value ∧
        ∀ k, w.getLsbD k =
          if lsb ≤ k ∧ k < lsb + width then value.getLsbD (k - lsb) else word.getLsbD k) ∧
    ((getSigned word width lsb h).toInt =
      if 2 ^ (width - 1) ≤ (getUnsigned word width lsb h).toNat
      then ((getUnsigned word width lsb h).toNat : Int) - 2 ^ width
      else (getUnsigned word width lsb h).toNat) ∧
    (fitsSigned value width (Nat.le_of_add_right_le h) = false →
      putSigned word width lsb value h = .error .overflowError)

/-! ## The decoder and the encoder -/

/-- R98, R99, R101: what `decode` gives for every word, each field by the codec's own extraction. -/
def Obligations.DecodeReadsTheFieldsOfTheTwoFormats : Prop :=
  ∀ w : Word,
    let get := fun (width lsb : Nat) (h : width + lsb ≤ 64) => (getUnsigned (zext64 w) width lsb h).toNat
    let opcode := get 4 28 (by decide)
    (opcode = 13 → ∃ dest value, decode w = .loadImmediate dest value ∧
      dest.val = get 3 25 (by decide) ∧ value.toNat = get 25 0 (by decide)) ∧
    (14 ≤ opcode → ∃ op, decode w = .invalid op ∧ op.toNat = opcode) ∧
    (opcode ≤ 12 → ∃ op a b c, decode w = .threeRegister op a b c ∧ op.val = opcode ∧
      a.val = get 3 6 (by decide) ∧ b.val = get 3 3 (by decide) ∧ c.val = get 3 0 (by decide))

/-- R104: two words that agree on the opcode and on the fields it uses decode alike. The clause on register fields
an effect does not name is the spec's own derivation (R104: "[derived: from rule R98 ...]"). -/
def Obligations.IgnoredBitsDoNotMatter : Prop :=
  ∀ w v : Word, (∀ k ∈ usedBits (w.toNat / 2 ^ 28), w.getLsbD k = v.getLsbD k) → decodeInstr w = decodeInstr v

/-- R105: exactly `0xE0000000 .. 0xFFFFFFFF` is no instruction, and fetching such a word, nothing else, raises
`InvalidOpcode` with it. -/
def Obligations.OnlyOpcodes14And15AreInvalid : Prop :=
  (∀ w : Word, (∃ op, decodeInstr w = .error (.invalidOpcode op)) ↔ 0xE0000000 ≤ w.toNat) ∧
  (∀ w : Word, (∃ i, decodeInstr w = .ok i) ↔ w.toNat < 0xE0000000) ∧
  (∀ (s : State) (w : Word), s.run = .running →
    ((∃ t, step s = .next t ∧ t.run = .faulted (.invalidOpcode w)) ↔
      s.table.cell 0#32 s.pc = some w ∧ 0xE0000000 ≤ w.toNat))

/-- R108: the two encoders as numbers, and their failure on an operand out of its range. -/
def Obligations.EncodersBuildTheWordOrOverflow : Prop :=
  (∀ op a b c : Container, op.toNat ≤ 12 → a.toNat ≤ 7 → b.toNat ≤ 7 → c.toNat ≤ 7 →
    ∃ w, enc3 op a b c = .ok w ∧ w.toNat = op.toNat * 2 ^ 28 + a.toNat * 64 + b.toNat * 8 + c.toNat) ∧
  (∀ dest value : Container, dest.toNat ≤ 7 → value.toNat < 2 ^ 25 →
    ∃ w, encLI dest value = .ok w ∧ w.toNat = 0xD0000000 + dest.toNat * 2 ^ 25 + value.toNat) ∧
  (∀ op a b c : Container, 16 ≤ op.toNat ∨ 8 ≤ a.toNat ∨ 8 ≤ b.toNat ∨ 8 ≤ c.toNat →
    enc3 op a b c = .error .overflowError) ∧
  (∀ dest value : Container, 8 ≤ dest.toNat ∨ 2 ^ 25 ≤ value.toNat →
    encLI dest value = .error .overflowError)

/-- R109, both directions: decoding an encoding gives the fields back, and encoding the decoded fields of a word
gives the word with bits 27:9 cleared. -/
def Obligations.DecodeInvertsTheEncoders : Prop :=
  (∀ (op : Fin 13) (a b c : Reg), ∃ w,
    enc3 (BitVec.ofNat 64 op.val) (regBits a) (regBits b) (regBits c) = .ok w ∧
    decode w = .threeRegister op a b c) ∧
  (∀ (dest : Reg) (value : BitVec 25), ∃ w,
    encLI (regBits dest) (value.setWidth 64) = .ok w ∧ decode w = .loadImmediate dest value) ∧
  (∀ (w : Word) (op : Fin 13) (a b c : Reg), decode w = .threeRegister op a b c → ∃ v,
    enc3 (BitVec.ofNat 64 op.val) (regBits a) (regBits b) (regBits c) = .ok v ∧
    ∀ k, k < 32 → v.getLsbD k = (w.getLsbD k && !(decide (9 ≤ k ∧ k ≤ 27))))

/-- Every well-formed instruction, with every operand at every value its field admits, is what its encoding
decodes to; an ill-formed one has no encoding; and the decoder gives only well-formed ones. -/
def Obligations.EveryInstructionDecodesFromItsEncoding : Prop :=
  (∀ i : Instr, i.WellFormed → ∃ w, encode i = .ok w ∧ decodeInstr w = .ok i) ∧
  (∀ i : Instr, ¬i.WellFormed → encode i = .error .overflowError) ∧
  (∀ (w : Word) (i : Instr), decodeInstr w = .ok i → i.WellFormed)

/-- Words of the spec's own examples (95_test_vectors.md E1, E2, V-D2, V-D5, V-D6, V-D10 to V-D14, V-M1) decode
to what they stand for. A sanity statement. -/
def Obligations.SampleWordsDecode : Prop :=
  decodeInstr 0xD0000048#32 = .ok (.loadImmediate 0 72#32) ∧
  decodeInstr 0xA0000000#32 = .ok (.output 0) ∧
  decodeInstr 0x70000000#32 = .ok .halt ∧
  decodeInstr 0x80000011#32 = .ok (.mapSegment 2 1) ∧
  decodeInstr 0x20000083#32 = .ok (.segmentStore 2 0 3) ∧
  decodeInstr 0x10000110#32 = .ok (.segmentLoad 4 2 0) ∧
  decodeInstr 0x300001FA#32 = .ok (.add 7 7 2) ∧
  decodeInstr 0xDFFFFFFF#32 = .ok (.loadImmediate 7 0x1FFFFFF#32) ∧
  decodeInstr 0xD3000001#32 = .ok (.loadImmediate 1 0x1000001#32) ∧
  decodeInstr 0x38000053#32 = .ok (.add 1 2 3) ∧
  decodeInstr 0x30000153#32 = .ok (.add 5 2 3) ∧
  decodeInstr 0x7FFFFFFF#32 = .ok .halt ∧
  decodeInstr 0xCFFFFFFF#32 = .ok (.loadProgram 7 7) ∧
  decodeInstr 0x00000053#32 = .ok (.conditionalMove 1 2 3)

/-! ## The instructions: encoding, result, completion and frame of each -/

/-- R150. -/
def Obligations.ConditionalMoveMovesWhenConditionNonZero : Prop :=
  ∀ (a b c : Reg) (s : State), DecodesAs 0 a b c (.conditionalMove a b c) ∧
    (s.reg c ≠ 0#32 → WritesRegister (.conditionalMove a b c) a (s.reg b) s) ∧
    (s.reg c = 0#32 → OnlyMovesPc (.conditionalMove a b c) (s.pc + 1#32) s)

/-- R151: for every immediate of the field, the register becomes it, its bits 31:25 zero. -/
def Obligations.LoadImmediateZeroExtendsTheValue : Prop :=
  ∀ (dest : Reg) (value : Nat) (s : State), value < 2 ^ 25 → ∃ v : Word,
    v.toNat = value ∧ (∀ k, 25 ≤ k → v.getLsbD k = false) ∧
    decodeInstr (loadImmediateWord dest value) = .ok (.loadImmediate dest v) ∧
    WritesRegister (.loadImmediate dest v) dest v s

/-- R160. -/
def Obligations.AddIsModuloTwoToThe32 : Prop :=
  ∀ (a b c : Reg) (s : State), DecodesAs 3 a b c (.add a b c) ∧
    ∃ v : Word, v.toNat = ((s.reg b).toNat + (s.reg c).toNat) % 2 ^ 32 ∧ WritesRegister (.add a b c) a v s

/-- R161. -/
def Obligations.MultiplyIsModuloTwoToThe32 : Prop :=
  ∀ (a b c : Reg) (s : State), DecodesAs 4 a b c (.multiply a b c) ∧
    ∃ v : Word, v.toNat = (s.reg b).toNat * (s.reg c).toNat % 2 ^ 32 ∧ WritesRegister (.multiply a b c) a v s

/-- R162: the quotient is the largest `v` with `v * divisor <= dividend`; a zero divisor faults. That "unsigned
integer division" means the floor is the spec's general knowledge (93 G2, assumption log 20). -/
def Obligations.DivideIsFloorOrDivideByZero : Prop :=
  ∀ (a b c : Reg) (s : State), DecodesAs 5 a b c (.divide a b c) ∧
    (s.reg c ≠ 0#32 → ∃ v : Word, v.toNat * (s.reg c).toNat ≤ (s.reg b).toNat ∧
      (s.reg b).toNat < (v.toNat + 1) * (s.reg c).toNat ∧ WritesRegister (.divide a b c) a v s) ∧
    (s.reg c = 0#32 → Faults (.divide a b c) .divideByZero s)

/-- R163, bit by bit. -/
def Obligations.NandIsBitwise : Prop :=
  ∀ (a b c : Reg) (s : State), DecodesAs 6 a b c (.nand a b c) ∧
    ∃ v : Word, (∀ k, k < 32 → v.getLsbD k = !((s.reg b).getLsbD k && (s.reg c).getLsbD k)) ∧
      WritesRegister (.nand a b c) a v s

/-- R180: the cell at `(x[b], x[c])`, or the two faults in their order. -/
def Obligations.SegmentLoadReadsTheCellOrFaults : Prop :=
  ∀ (a b c : Reg) (s : State), DecodesAs 1 a b c (.segmentLoad a b c) ∧
    (∀ n, s.table.len (loadAddress s b c).1 = some n → (loadAddress s b c).2.toNat < n →
      ∃ v, s.table.cell (loadAddress s b c).1 (loadAddress s b c).2 = some v ∧
        WritesRegister (.segmentLoad a b c) a v s) ∧
    (Unmapped s (s.reg b) → Faults (.segmentLoad a b c) (.unmappedAccess (s.reg b)) s) ∧
    (PastTheEnd s (s.reg b) (s.reg c) → Faults (.segmentLoad a b c) (.outOfBounds (s.reg b) (s.reg c)) s)

/-- R181: exactly the cell at `(x[a], x[b])` takes `x[c]`, no length changes, or the two faults. -/
def Obligations.SegmentStoreWritesOneCellOrFaults : Prop :=
  ∀ (a b c : Reg) (s : State), DecodesAs 2 a b c (.segmentStore a b c) ∧
    (∀ n, s.table.len (storeAddress s a b).1 = some n → (storeAddress s a b).2.toNat < n →
      ∃ t, exec (.segmentStore a b c) s = .next t ∧
        t.table.cell (storeAddress s a b).1 (storeAddress s a b).2 = some (s.reg c) ∧
        (∀ id off, (id, off) ≠ storeAddress s a b → t.table.cell id off = s.table.cell id off) ∧
        (∀ id, t.table.len id = s.table.len id) ∧
        t.table.free = s.table.free ∧ t.table.nextId = s.table.nextId ∧
        t.pc = s.pc + 1#32 ∧ t.run = s.run ∧ RegistersKept s t ∧ StreamsKept s t) ∧
    (Unmapped s (s.reg a) → Faults (.segmentStore a b c) (.unmappedAccess (s.reg a)) s) ∧
    (PastTheEnd s (s.reg a) (s.reg b) → Faults (.segmentStore a b c) (.outOfBounds (s.reg a) (s.reg b)) s)

/-- R182, R53, R69, R70: the id freed last, else the next fresh id; `x[c]` zero words; the fault when none is
left. -/
def Obligations.MapSegmentReusesLastFreedElseMints : Prop :=
  ∀ (a b c : Reg) (s : State), DecodesAs 8 a b c (.mapSegment b c) ∧
    (∀ i rest, s.table.free = i :: rest → ∃ t, exec (.mapSegment b c) s = .next t ∧ t.reg b = i ∧
      t.table.free = rest ∧ t.table.nextId = s.table.nextId ∧ NewSegment i (s.reg c).toNat s t ∧
      t.pc = s.pc + 1#32 ∧ t.run = s.run ∧ RegistersKeptBut b s t ∧ StreamsKept s t) ∧
    (s.table.free = [] → s.table.nextId < 2 ^ 32 → ∃ t, exec (.mapSegment b c) s = .next t ∧
      (t.reg b).toNat = s.table.nextId ∧ t.table.free = [] ∧ t.table.nextId = s.table.nextId + 1 ∧
      NewSegment (t.reg b) (s.reg c).toNat s t ∧
      t.pc = s.pc + 1#32 ∧ t.run = s.run ∧ RegistersKeptBut b s t ∧ StreamsKept s t) ∧
    (s.table.free = [] → s.table.nextId = 2 ^ 32 → Faults (.mapSegment b c) .segmentIdExhausted s)

/-- R183, R54: the id leaves the map and heads the pool; id 0 and an unmapped id fault. -/
def Obligations.UnmapSegmentFreesTheIdOrFaults : Prop :=
  ∀ (a b c : Reg) (s : State), DecodesAs 9 a b c (.unmapSegment c) ∧
    (s.reg c ≠ 0#32 → ∀ n, s.table.len (s.reg c) = some n → ∃ t, exec (.unmapSegment c) s = .next t ∧
      Unmapped t (s.reg c) ∧ t.table.free = s.reg c :: s.table.free ∧ t.table.nextId = s.table.nextId ∧
      (∀ k, k ≠ s.reg c → t.table.len k = s.table.len k ∧ ∀ off, t.table.cell k off = s.table.cell k off) ∧
      t.pc = s.pc + 1#32 ∧ t.run = s.run ∧ RegistersKept s t ∧ StreamsKept s t) ∧
    (s.reg c = 0#32 → Faults (.unmapSegment c) .unmapSegmentZero s) ∧
    (s.reg c ≠ 0#32 → Unmapped s (s.reg c) → Faults (.unmapSegment c) (.unmappedAccess (s.reg c)) s)

/-- R200, R58, R201: the map and the pool are emptied, the run state is `Halted`, all else is kept, the exit status
is 0 and no cycle follows: that a later `step` answers the same state is the model's reading (DEDUCED, assumption
log 4). -/
def Obligations.HaltReleasesEverySegment : Prop :=
  ∀ (a b c : Reg) (s : State), DecodesAs 7 a b c .halt ∧
    ∃ t, exec .halt s = .next t ∧ t.run = .halted ∧ (∀ id, Unmapped t id) ∧
      (∀ id off, t.table.cell id off = none) ∧ t.table.free = [] ∧ t.table.nextId = s.table.nextId ∧
      t.pc = s.pc ∧ RegistersKept s t ∧ StreamsKept s t ∧
      t.run.exitStatus = some 0 ∧ ∀ k, runsFor k t t

/-- R202, R57: a jump, after a copy of segment `x[b]` onto segment 0 when `x[b]` is not 0. -/
def Obligations.LoadProgramCopiesThenJumps : Prop :=
  ∀ (a b c : Reg) (s : State), DecodesAs 12 a b c (.loadProgram b c) ∧
    (s.reg b = 0#32 → OnlyMovesPc (.loadProgram b c) (s.reg c) s) ∧
    (s.reg b ≠ 0#32 → ∀ n, s.table.len (s.reg b) = some n → ∃ t, exec (.loadProgram b c) s = .next t ∧
      t.pc = s.reg c ∧ t.table.len 0#32 = some n ∧
      (∀ off, t.table.cell 0#32 off = s.table.cell (s.reg b) off) ∧
      (∀ k, k ≠ 0#32 → t.table.len k = s.table.len k ∧ ∀ off, t.table.cell k off = s.table.cell k off) ∧
      t.table.free = s.table.free ∧ t.table.nextId = s.table.nextId ∧ t.run = s.run ∧
      RegistersKept s t ∧ StreamsKept s t) ∧
    (s.reg b ≠ 0#32 → Unmapped s (s.reg b) → Faults (.loadProgram b c) (.unmappedAccess (s.reg b)) s)

/-- R220: the sentinel, a byte, or the fault. -/
def Obligations.OutputWritesOneByteSkipsOrFaults : Prop :=
  ∀ (a b c : Reg) (s : State), DecodesAs 10 a b c (.output c) ∧
    (s.reg c = 0xFFFFFFFF#32 → OnlyMovesPc (.output c) (s.pc + 1#32) s) ∧
    ((s.reg c).toNat ≤ 255 → ∃ t byte, exec (.output c) s = .next t ∧ byte.toNat = (s.reg c).toNat ∧
      t.out = s.out ++ [byte] ∧ t.input = s.input ∧ t.inPos = s.inPos ∧
      t.pc = s.pc + 1#32 ∧ t.run = s.run ∧ RegistersKept s t ∧ TableKept s t) ∧
    (256 ≤ (s.reg c).toNat → (s.reg c).toNat ≤ 0xFFFFFFFE →
      Faults (.output c) (.outputRange (s.reg c)) s)

/-- R221, R33: the next byte zero-extended and consumed, or the sentinel and nothing consumed. -/
def Obligations.InputReadsOneByteOrTheSentinel : Prop :=
  ∀ (a b c : Reg) (s : State), DecodesAs 11 a b c (.input c) ∧
    (∀ byte, s.input[s.inPos]? = some byte → ∃ t, exec (.input c) s = .next t ∧
      (t.reg c).toNat = byte.toNat ∧ t.inPos = s.inPos + 1 ∧ t.input = s.input ∧ t.out = s.out ∧
      t.pc = s.pc + 1#32 ∧ t.run = s.run ∧ RegistersKeptBut c s t ∧ TableKept s t) ∧
    (s.input.length ≤ s.inPos → WritesRegister (.input c) c 0xFFFFFFFF#32 s)

/-! ## The instructions as a family -/

/-- R22, the whole table. An instruction changes no register outside its "writes" column. A register outside its
"reads" column has no influence: with that register holding any other value, the instruction ends with the same
program counter, run state, table and streams, every other register is the same, and that register itself holds
what the instruction wrote to it, or the other value where it wrote nothing. -/
def Obligations.RegisterReadAndWriteTable : Prop :=
  (∀ (i : Instr) (s t : State), exec i s = .next t → ∀ r, r ∉ writesOf s i → t.reg r = s.reg r) ∧
  (∀ (i : Instr) (s : State) (r : Reg) (v : Word), r ∉ readsOf s i → s.run = .running → ∃ t t',
    exec i s = .next t ∧ exec i (s.setReg r v) = .next t' ∧
    t'.pc = t.pc ∧ t'.run = t.run ∧ t'.table = t.table ∧ t'.input = t.input ∧ t'.inPos = t.inPos ∧
    t'.out = t.out ∧ (∀ q, q ≠ r → t'.reg q = t.reg q) ∧
    (r ∈ writesOf s i → t.run = .running → t'.reg r = t.reg r) ∧ (r ∉ writesOf s i → t'.reg r = v))

/-- R24: how `pc` changes, for every instruction, from a `Running` state. -/
def Obligations.ProgramCounterRule : Prop :=
  ∀ (i : Instr) (s : State), s.run = .running → ∃ t, exec i s = .next t ∧
    (∀ f, t.run = .faulted f → t.pc = s.pc) ∧
    (i = .halt → t.pc = s.pc) ∧
    (∀ b c, i = .loadProgram b c → t.run = .running → t.pc = s.reg c) ∧
    (i ≠ .halt → (∀ b c, i ≠ .loadProgram b c) → t.run = .running → t.pc = s.pc + 1#32)

/-- R165: the four ALU functions as the rule writes them, and the operations it lists as built from them, which are
the spec's own derivation. That `div` is the floor is the spec's general knowledge (93 G2): PRESUMED, assumption
log 20. -/
def Obligations.AluFunctionsAndDerivedOperations : Prop :=
  ∀ p q : Word,
    (aluAdd p q).toNat = (p.toNat + q.toNat) % 2 ^ 32 ∧
    (aluMul p q).toNat = p.toNat * q.toNat % 2 ^ 32 ∧
    (q = 0#32 ↔ aluDiv p q = none) ∧ (∀ d, aluDiv p q = some d → d.toNat = p.toNat / q.toNat) ∧
    aluNand p q = ~~~(p &&& q) ∧
    ~~~p = aluNand p p ∧
    p &&& q = aluNand (aluNand p q) (aluNand p q) ∧
    p ||| q = aluNand (aluNand p p) (aluNand q q) ∧
    -p = aluAdd (aluNand p p) 1#32 ∧
    p - q = aluAdd p (aluAdd (aluNand q q) 1#32)

/-- R111: the three idioms and the instruction that changes nothing but `pc`. The conditional jump is said as its
two instructions in a row. -/
def Obligations.IdiomsOfTheInstructionSet : Prop :=
  (∀ (z t : Reg) (s : State), s.reg z = 0#32 → OnlyMovesPc (.loadProgram z t) (s.reg t) s) ∧
  (∀ (a z : Reg) (s : State), s.reg z = 0#32 → WritesRegister (.nand a z z) a 0xFFFFFFFF#32 s) ∧
  (∀ (a c : Reg) (s : State), OnlyMovesPc (.conditionalMove a a c) (s.pc + 1#32) s) ∧
  (∀ (t u c z : Reg) (s : State), s.reg z = 0#32 → t ≠ z → ∃ s' s'',
    exec (.conditionalMove t u c) s = .next s' ∧ exec (.loadProgram z t) s' = .next s'' ∧
    s''.pc = if s.reg c ≠ 0#32 then s.reg u else s.reg t)

/-! ## Memory over several instructions -/

/-- R60 over R180 and R181: a load of the stored address after a store returns the stored word. -/
def Obligations.LoadAfterStoreReturnsTheWord : Prop :=
  ∀ (a b c d e f : Reg) (s t : State), s.run = .running → exec (.segmentStore a b c) s = .next t →
    t.run = .running → loadAddress t e f = storeAddress s a b →
    WritesRegister (.segmentLoad d e f) d (s.reg c) t

/-- R66: the fetch after a store into segment 0, or after a LoadProgram with a copy, sees the new words. -/
def Obligations.NextFetchSeesTheNewProgram : Prop :=
  (∀ (a b c : Reg) (s t : State), s.run = .running → exec (.segmentStore a b c) s = .next t →
    t.run = .running → s.reg a = 0#32 → s.reg b = t.pc → ∀ i, decodeInstr (s.reg c) = .ok i →
    step t = exec i t) ∧
  (∀ (b c : Reg) (s t : State), s.run = .running → exec (.loadProgram b c) s = .next t →
    t.run = .running → s.reg b ≠ 0#32 → ∀ w i, s.table.cell (s.reg b) (s.reg c) = some w →
    decodeInstr w = .ok i → step t = exec i t)

/-- R57: after a copy the two segments are independent: a later store to one does not show in the other. -/
def Obligations.CopiedProgramIsIndependent : Prop :=
  ∀ (b c a' b' c' : Reg) (s t u : State), s.run = .running → exec (.loadProgram b c) s = .next t →
    t.run = .running → s.reg b ≠ 0#32 → exec (.segmentStore a' b' c') t = .next u →
    (t.reg a' = s.reg b → ∀ off, u.table.cell 0#32 off = s.table.cell (s.reg b) off) ∧
    (t.reg a' = 0#32 → ∀ off, u.table.cell (s.reg b) off = s.table.cell (s.reg b) off)

/-- R53, R54, R183: ids freed one after the other come back last-freed first (95_test_vectors.md E5). -/
def Obligations.FreedIdsComeBackLastFirst : Prop :=
  ∀ (t t1 t2 : SegTable) (i j n m : Word), t.segFree i = .ok t1 → t1.segFree j = .ok t2 →
    ∃ t3 t4, t2.segAlloc n = .ok (j, t3) ∧ t3.segAlloc m = .ok (i, t4) ∧
      t4.free = t.free ∧ t4.nextId = t.nextId ∧
      t4.len i = some m.toNat ∧ t4.len j = some n.toNat ∧
      (∀ off : Word, off.toNat < m.toNat → t4.cell i off = some 0#32) ∧
      (∀ off : Word, off.toNat < n.toNat → t4.cell j off = some 0#32)

/-- R182 with R32: in a state that meets the invariants, the id MapSegment returns is not 0 and was not mapped. The
spec derives it from R53 and R32. -/
def Obligations.MapSegmentReturnsAnUnmappedId : Prop :=
  ∀ (b c : Reg) (s t : State), s.Inv → s.run = .running → exec (.mapSegment b c) s = .next t →
    t.run = .running → t.reg b ≠ 0#32 ∧ Unmapped s (t.reg b)

/-- R287: after an unmap, each of the four instructions that can name the id faults `UnmappedAccess`. -/
def Obligations.DanglingIdFaultsEverywhere : Prop :=
  ∀ (c : Reg) (s t : State), s.run = .running → exec (.unmapSegment c) s = .next t → t.run = .running →
    ∀ a b d : Reg,
      (t.reg b = s.reg c → Faults (.segmentLoad a b d) (.unmappedAccess (s.reg c)) t) ∧
      (t.reg a = s.reg c → Faults (.segmentStore a b d) (.unmappedAccess (s.reg c)) t) ∧
      (t.reg d = s.reg c → Faults (.unmapSegment d) (.unmappedAccess (s.reg c)) t) ∧
      (t.reg b = s.reg c → Faults (.loadProgram b d) (.unmappedAccess (s.reg c)) t)

/-! ## The step -/

/-- R131, R133, R136: while `Running`, with an instruction at `(0, pc)`, the step is that instruction's own rule
and nothing around it: `pc` is the instruction's to change. -/
def Obligations.StepRunsTheDecodedInstruction : Prop :=
  ∀ (s : State) (w : Word) (i : Instr), s.run = .running → s.table.cell 0#32 s.pc = some w →
    decodeInstr w = .ok i → step s = exec i s

/-- R132: at or past the end of segment 0 the run ends, and nothing else changes; the exit status is 0. -/
def Obligations.EndOfProgramEndsTheRun : Prop :=
  ∀ (s : State) (n : Nat), s.run = .running → s.table.len 0#32 = some n → n ≤ s.pc.toNat →
    ∃ t, step s = .next t ∧ t.run = .ended ∧ t.run.exitStatus = some 0 ∧ t.pc = s.pc ∧
      RegistersKept s t ∧ TableKept s t ∧ StreamsKept s t

/-- R135: a fetched word with opcode 14 or 15 raises `InvalidOpcode` with the word; nothing else changes. -/
def Obligations.InvalidOpcodeFaultsAtTheWord : Prop :=
  ∀ (s : State) (w : Word), s.run = .running → s.table.cell 0#32 s.pc = some w → 14 ≤ w.toNat / 2 ^ 28 →
    ∃ t, step s = .next t ∧ FaultedFrom (.invalidOpcode w) s t

/-- R240: every fault is raised exactly under its condition, with its information, by a cycle of a state that meets
the invariants; and the numbers of the table. -/
def Obligations.FaultsAreRaisedExactlyOnTheirConditions : Prop :=
  (∀ (s : State) (f : FatalFault), s.Inv → s.run = .running →
    ((∃ t, step s = .next t ∧ t.run = .faulted f) ↔ CycleFaults s f)) ∧
  ∀ w id off v : Word, [FatalFault.invalidOpcode w, .unmappedAccess id, .outOfBounds id off, .divideByZero,
    .outputRange v, .unmapSegmentZero, .segmentIdExhausted].map FatalFault.code = [1, 2, 3, 4, 5, 6, 7]

/-- R241, R243: a cycle that faults changes the run state alone. -/
def Obligations.FaultingCycleChangesNothingElse : Prop :=
  ∀ (s t : State) (f : FatalFault), s.run = .running → step s = .next t → t.run = .faulted f →
    FaultedFrom f s t

/-- R138: a run ends in exactly one of three ways, each a function of the state; otherwise it goes on. -/
def Obligations.RunEndsInExactlyThreeWays : Prop :=
  ∀ (s t : State), s.Inv → s.run = .running → step s = .next t →
    (t.run = .halted ↔ ∃ w, s.table.cell 0#32 s.pc = some w ∧ w.toNat / 2 ^ 28 = 7) ∧
    (t.run = .ended ↔ ∃ n, s.table.len 0#32 = some n ∧ n ≤ s.pc.toNat) ∧
    ((∃ f, t.run = .faulted f) ↔ ∃ f, CycleFaults s f) ∧
    (t.run = .running ↔ (∃ i, Fetches s i ∧ i ≠ .halt) ∧ ¬∃ f, CycleFaults s f)

/-- R26, R131: in a terminal run state nothing changes any more, however many steps are asked for. The answer of
`step` there is the model's reading (assumption log 4). -/
def Obligations.TerminalStatesNeverChange : Prop :=
  ∀ (s : State) (k : Nat), s.run.terminal = true → runsFor k s s

/-- R26, R242: the exit status, for every value of the open parameter `FAULT_STATUS`. -/
def Obligations.ExitStatusTellsSuccessFromFault : Prop :=
  ∀ r : RunState, (r.exitStatus = none ↔ r.terminal = false) ∧ (r.exitStatus = some 0 ↔ r.success = true) ∧
    (∀ f, r = .faulted f → ∃ n, n ≠ 0 ∧ r.exitStatus = some n) ∧
    (r.diagnostic = none ↔ ∀ f, r ≠ .faulted f)

/-- R25: in a state that meets the invariants, the `pc` of an instruction is at most `2^32 - 2`, so that `pc + 1`
does not wrap. The spec derives it (R25). -/
def Obligations.ProgramCounterNeverWraps : Prop :=
  ∀ (s : State) (w : Word), s.Inv → s.table.cell 0#32 s.pc = some w →
    s.pc.toNat ≤ 2 ^ 32 - 2 ∧ (s.pc + 1#32).toNat = s.pc.toNat + 1

/-- R34, R33, R222: in one cycle the output grows by at most one byte, by an Output, and at most one input byte is
consumed, the next one, by an Input; the input stream itself never changes. -/
def Obligations.StreamsMoveOneByteInOrder : Prop :=
  ∀ (s t : State), s.run = .running → step s = .next t →
    t.input = s.input ∧
    (t.out = s.out ∨ ∃ c byte, Fetches s (.output c) ∧ byte.toNat = (s.reg c).toNat ∧ t.out = s.out ++ [byte]) ∧
    (t.inPos = s.inPos ∨ ∃ c byte, Fetches s (.input c) ∧ s.input[s.inPos]? = some byte ∧
      (t.reg c).toNat = byte.toNat ∧ t.inPos = s.inPos + 1)

/-- R34, R139, R242 over whole runs: bytes once written stay written, in order, and a run of `k` steps writes and
consumes at most `k` bytes, whatever ends it. Steps after the end are the model's reading (DEDUCED, assumption
log 4). -/
def Obligations.OutputIsNeverRetracted : Prop :=
  ∀ (k : Nat) (s t : State), runsFor k s t → t.input = s.input ∧
    (∃ more : List Byte, t.out = s.out ++ more ∧ more.length ≤ k) ∧ s.inPos ≤ t.inPos ∧ t.inPos ≤ s.inPos + k

/-- R30: a segment's length never changes; only segment 0 is replaced, by LoadProgram. A step from a terminal run
state is the model's reading (DEDUCED, assumption log 4). -/
def Obligations.SegmentLengthIsImmutable : Prop :=
  ∀ (s t : State) (id : Word) (n k : Nat), s.Inv → step s = .next t → s.table.len id = some n →
    t.table.len id = some k →
    k = n ∨ (id = 0#32 ∧ ∃ b c, Fetches s (.loadProgram b c) ∧ s.reg b ≠ 0#32 ∧
      s.table.len (s.reg b) = some k)

/-- R30, R35, R50: the program changes only by a SegmentStore into segment 0, a LoadProgram with a copy, or
Halt. -/
def Obligations.ProgramChangesOnlyByStoreLoadProgramOrHalt : Prop :=
  ∀ (s t : State) (off : Word), s.Inv → s.run = .running → step s = .next t →
    t.table.cell 0#32 off ≠ s.table.cell 0#32 off →
    (∃ a b c, Fetches s (.segmentStore a b c) ∧ s.reg a = 0#32 ∧ s.reg b = off) ∨
    (∃ b c, Fetches s (.loadProgram b c) ∧ s.reg b ≠ 0#32) ∨ Fetches s .halt

/-- R289: a LoadProgram that jumps to itself without a copy runs for ever: every number of steps leaves the state
as it is. -/
def Obligations.SelfJumpRunsForEver : Prop :=
  ∀ (b c : Reg) (s : State), s.run = .running → Fetches s (.loadProgram b c) → s.reg b = 0#32 →
    s.reg c = s.pc → ∀ k, runsFor k s s

/-! ## Reset, loading, and the invariants -/

/-- R280, R36, R52, R68, R59: the binary is accepted exactly when its size is a multiple of 4 and at most
`2^32 - 1` words; the state after reset is then the spec's, segment 0 holding the big-endian words, in any run
state the reset is applied from (R282). -/
def Obligations.BootGivesTheResetState : Prop :=
  ∀ (old : State) (bytes input : List Byte),
    (old.hostReset bytes input = none ↔ bytes.length % 4 ≠ 0 ∨ 2 ^ 32 ≤ bytes.length / 4) ∧
    (∀ s, old.hostReset bytes input = some s →
      (∀ r, s.reg r = 0#32) ∧ s.pc = 0#32 ∧ s.run = .running ∧
      s.table.len 0#32 = some (bytes.length / 4) ∧ (∀ id, id ≠ 0#32 → Unmapped s id) ∧
      (∀ k b0 b1 b2 b3, bytes[4 * k]? = some b0 → bytes[4 * k + 1]? = some b1 →
        bytes[4 * k + 2]? = some b2 → bytes[4 * k + 3]? = some b3 →
        ∃ w, s.table.cell 0#32 (BitVec.ofNat 32 k) = some w ∧
          w.toNat = b0.toNat * 2 ^ 24 + b1.toNat * 2 ^ 16 + b2.toNat * 2 ^ 8 + b3.toNat) ∧
      s.table.free = [] ∧ s.table.nextId = 1 ∧ s.input = input ∧ s.inPos = 0 ∧ s.out = [])

/-- R32, R36: the invariants hold after every reset, and of `State.reset` itself, whose empty program and input are
the model's choice (assumption logs 2 and 3). R32 is the spec's own derivation, read as in assumption log 17. -/
def Obligations.InvariantsHoldAfterReset : Prop :=
  State.reset.Inv ∧ ∀ (prog : List Word) (input : List Byte), prog.length < 2 ^ 32 →
    (State.resetWith prog input).Inv

/-- R32, R133, R137: from every state that meets the invariants a step answers a next state, and it meets them:
the model never stops, and the map stays canonical. That a step answers the same state from `Halted`, `Ended` and
`Faulted` is the model's reading of R131 (DEDUCED, assumption log 4). R32's clause on issued ids is read as not
holding after Halt (DEDUCED, assumption log 17). -/
def Obligations.EveryStepKeepsTheInvariants : Prop :=
  ∀ s : State, s.Inv → ∃ t, step s = .next t ∧ t.Inv

/-- Every run of every program on every input goes on for ever or stands in a terminal run state: from any boot,
any number of steps answers a state that meets the invariants. A run that has ended answers further states only by the
model's reading of R131 (DEDUCED, assumption log 4), and the invariants are R32 as assumption log 17 reads it
(DEDUCED). -/
def Obligations.EveryRunFromBootNeverStops : Prop :=
  ∀ (bytes input : List Byte) (s : State), boot bytes input = some s →
    neverStops s ∧ ∀ k t, runsFor k s t → t.Inv

/-- A word placed for the next fetch is what the next step runs, from any state. The placing is the model's
(DESIGN CHOICE, assumption log 24). -/
def Obligations.PlacedWordIsRunNext : Prop :=
  ∀ (s : State) (w : Word) (i : Instr), decodeInstr w = .ok i →
    step (s.withFetchWord 32 w.toNat) = exec i (s.withFetchWord 32 w.toNat) ∧
    (s.withFetchWord 32 w.toNat).pc = s.pc ∧ RegistersKept s (s.withFetchWord 32 w.toNat) ∧
    StreamsKept s (s.withFetchWord 32 w.toNat) ∧
    (∀ k, k ≠ 0#32 → (s.withFetchWord 32 w.toNat).table.len k = s.table.len k ∧
      ∀ off, (s.withFetchWord 32 w.toNat).table.cell k off = s.table.cell k off)
end

