-- ==== Sys2Proof/Laws/Alu.lean ====
section
/-! SUPPORT. The conditions that stand in the place of flags, and the ALU's functions, each said once. -/

namespace Sys2Proof.Machine

variable {p q : Word}

@[simp] theorem conditionHolds_iff : conditionHolds p = true ↔ p ≠ 0#32 := by simp [conditionHolds]
@[simp] theorem divideByZeroIndication_iff : divideByZeroIndication q = true ↔ q = 0#32 := by
  simp [divideByZeroIndication]
@[simp] theorem isSentinel_iff : isSentinel p = true ↔ p = sentinel := by simp [isSentinel]
@[simp] theorem exceedsByte_iff : exceedsByte p = true ↔ 256 ≤ p.toNat := by simp [exceedsByte, Nat.succ_le_iff]
@[simp] theorem isProgramSegment_iff : isProgramSegment p = true ↔ p = 0#32 := by simp [isProgramSegment]

/-- No quotient by zero (R162). -/
theorem aluDiv_zero (h : q = 0#32) : aluDiv p q = none := by
  unfold aluDiv
  rw [if_pos (divideByZeroIndication_iff.2 h)]

/-- The quotient by anything else (R162). -/
theorem aluDiv_nonzero (h : q ≠ 0#32) : aluDiv p q = some (BitVec.ofNat 32 (p.toNat / q.toNat)) := by
  unfold aluDiv
  rw [if_neg (mt divideByZeroIndication_iff.1 h)]

/-- The ALU's sum and product are the word type's own, which BitVec lemmas know. -/
theorem aluAdd_eq : aluAdd p q = p + q := by
  apply BitVec.eq_of_toNat_eq
  simp [aluAdd, BitVec.toNat_add]

theorem aluMul_eq : aluMul p q = p * q := by
  apply BitVec.eq_of_toNat_eq
  simp [aluMul, BitVec.toNat_mul]

end Sys2Proof.Machine
end

