-- ==== Sys2Proof/Laws/Codec.lean ====
section
/-! SUPPORT. The bit-field codec, each function said once: which bits an insertion sets, what an extraction reads,
and an insertion into a container whose upper bits only are set, as a sum. -/

namespace Sys2Proof.Machine

variable {word value w : Container} {width lsb : Nat} {h : width + lsb ≤ 64}

/-- The mask covers exactly the field. -/
theorem fieldMask_getLsbD (h : width + lsb ≤ 64) (k : Nat) :
    (fieldMask width lsb).getLsbD k = decide (lsb ≤ k ∧ k < lsb + width) := by
  unfold fieldMask
  rw [BitVec.getLsbD_shiftLeft, BitVec.getLsbD_ofNat, Nat.testBit_two_pow_sub_one]
  by_cases hk : k < 64 <;> by_cases h1 : lsb ≤ k <;> by_cases h2 : k < lsb + width <;>
    simp [hk, h1, h2] <;> omega

/-- A container below `2^width` has no bit at or above `width`. -/
theorem getLsbD_of_toNat_lt {v : Container} {k : Nat} (h : v.toNat < 2 ^ width) (hk : width ≤ k) :
    v.getLsbD k = false := by
  rw [BitVec.getLsbD, Nat.testBit_lt_two_pow (Nat.lt_of_lt_of_le h (Nat.pow_le_pow_right (by decide) hk))]

/-- What a successful insertion says: the value fits, and every bit of the result (R95). -/
theorem putUnsigned_ok (hw : putUnsigned word width lsb value h = .ok w) :
    value.toNat < 2 ^ width ∧ ∀ k, w.getLsbD k =
      if lsb ≤ k ∧ k < lsb + width then value.getLsbD (k - lsb) else word.getLsbD k := by
  unfold putUnsigned fitsUnsigned at hw
  split at hw
  · next hf =>
    have hf' : value.toNat < 2 ^ width := by simpa using hf
    refine ⟨hf', fun k => ?_⟩
    cases hw
    simp only [BitVec.getLsbD_or, BitVec.getLsbD_and, BitVec.getLsbD_not, fieldMask_getLsbD h,
      BitVec.getLsbD_shiftLeft]
    by_cases hk : k < 64
    · by_cases h1 : lsb ≤ k
      · by_cases h2 : k < lsb + width
        · simp [hk, h1, h2, Nat.not_lt.2 h1]
        · have := getLsbD_of_toNat_lt hf' (show width ≤ k - lsb by omega)
          simp [hk, h1, h2, this]
      · simp [hk, h1, Nat.lt_of_not_le h1]
    · have h2 : ¬ (lsb ≤ k ∧ k < lsb + width) := by omega
      simp [hk, h2, BitVec.getLsbD_of_ge _ _ (Nat.le_of_not_lt hk)]
  · cases hw

/-- A value that fits is inserted. -/
theorem putUnsigned_fits (hv : value.toNat < 2 ^ width) : ∃ w, putUnsigned word width lsb value h = .ok w := by
  unfold putUnsigned fitsUnsigned
  simp [hv]

/-- A value that does not fit overflows. -/
theorem putUnsigned_overflow (hv : 2 ^ width ≤ value.toNat) :
    putUnsigned word width lsb value h = .error .overflowError := by
  unfold putUnsigned fitsUnsigned
  simp [Nat.not_lt.2 hv]

/-- An extraction as a number (R93). -/
theorem getUnsigned_toNat (h : width + lsb ≤ 64) :
    (getUnsigned word width lsb h).toNat = word.toNat / 2 ^ lsb % 2 ^ width := by
  unfold getUnsigned
  rw [BitVec.toNat_ofNat, BitVec.toNat_ushiftRight, Nat.shiftRight_eq_div_pow]
  refine Nat.mod_eq_of_lt (Nat.lt_of_lt_of_le (Nat.mod_lt _ (Nat.two_pow_pos _)) ?_)
  exact Nat.pow_le_pow_right (by decide) (by omega)

/-- An extraction bit by bit (R93). -/
theorem getUnsigned_getLsbD (h : width + lsb ≤ 64) (k : Nat) :
    (getUnsigned word width lsb h).getLsbD k = (decide (k < width) && word.getLsbD (lsb + k)) := by
  rw [BitVec.getLsbD, getUnsigned_toNat, Nat.testBit_mod_two_pow, Nat.testBit_div_two_pow, BitVec.getLsbD,
    Nat.add_comm]

/-- Into a container with no bit below the field's top, an insertion adds the shifted value. -/
theorem putUnsigned_add (h : width + lsb ≤ 64) (hz : word.toNat % 2 ^ (lsb + width) = 0)
    (hv : value.toNat < 2 ^ width) :
    ∃ w, putUnsigned word width lsb value h = .ok w ∧ w.toNat = word.toNat + value.toNat * 2 ^ lsb := by
  obtain ⟨w, hw⟩ := putUnsigned_fits (word := word) (h := h) hv
  refine ⟨w, hw, ?_⟩
  have hb := (putUnsigned_ok hw).2
  obtain ⟨x, hx⟩ := Nat.dvd_of_mod_eq_zero hz
  have hlt : value.toNat * 2 ^ lsb < 2 ^ (lsb + width) := by
    rw [Nat.pow_add, Nat.mul_comm]
    exact Nat.mul_lt_mul_of_pos_left hv (Nat.two_pow_pos _)
  rw [hx]
  apply Nat.eq_of_testBit_eq
  intro k
  rw [Nat.testBit_two_pow_mul_add _ hlt]
  have hk := hb k
  simp only [BitVec.getLsbD] at hk
  rw [hk, hx]
  by_cases h2 : k < lsb + width
  · by_cases h1 : lsb ≤ k
    · rw [if_pos ⟨h1, h2⟩, if_pos h2, Nat.mul_comm, Nat.testBit_two_pow_mul]; simp [h1]
    · rw [if_neg (by omega), if_pos h2, Nat.mul_comm (value.toNat), Nat.testBit_two_pow_mul,
        Nat.testBit_two_pow_mul]
      simp [h1, Nat.not_le.2 h2]
  · rw [if_neg (by omega), if_neg h2, Nat.testBit_two_pow_mul]; simp [Nat.le_of_not_lt h2]

@[simp] theorem zext64_toNat (w : Word) : (zext64 w).toNat = w.toNat := by
  have := w.isLt
  unfold zext64
  rw [BitVec.toNat_setWidth]
  omega

end Sys2Proof.Machine
end

