-- ==== Sys2Proof/Laws/Decode.lean ====
section
/-! SUPPORT. The decoder and the two encoders in numbers: each field as a quotient and remainder of the word, the
three cases of `decode`, and the word each encoder builds. -/

namespace Sys2Proof

open Machine

/-! ## The fields -/

theorem opcodeField_toNat (w : Word) : (opcodeField w).toNat = w.toNat / 2 ^ 28 := by
  simp [opcodeField, BitVec.extractLsb'_toNat, Nat.shiftRight_eq_div_pow]
  omega

theorem fieldA_val (w : Word) : (fieldA w).val = w.toNat / 64 % 8 := by
  simp [fieldA, Nat.shiftRight_eq_div_pow]

theorem fieldB_val (w : Word) : (fieldB w).val = w.toNat / 8 % 8 := by
  simp [fieldB, Nat.shiftRight_eq_div_pow]

theorem fieldC_val (w : Word) : (fieldC w).val = w.toNat % 8 := by
  simp [fieldC]

theorem fieldDest_val (w : Word) : (fieldDest w).val = w.toNat / 2 ^ 25 % 8 := by
  simp [fieldDest, Nat.shiftRight_eq_div_pow]

theorem fieldValue_toNat (w : Word) : (fieldValue w).toNat = w.toNat % 2 ^ 25 := by
  simp [fieldValue]

/-! ## The three cases of decode -/

theorem decode_threeRegister {w : Word} (h : w.toNat / 2 ^ 28 < 13) :
    decode w = .threeRegister ⟨w.toNat / 2 ^ 28, h⟩ (fieldA w) (fieldB w) (fieldC w) := by
  have hop := opcodeField_toNat w
  have h13 : opcodeField w ≠ 13 := by
    intro e; rw [e] at hop; simp at hop; omega
  have hlt : (opcodeField w).toNat < 13 := by omega
  unfold decode
  rw [if_neg h13, dif_pos hlt]
  simp only [hop]

theorem decode_loadImmediate {w : Word} (h : w.toNat / 2 ^ 28 = 13) :
    decode w = .loadImmediate (fieldDest w) (fieldValue w) := by
  have hop := opcodeField_toNat w
  have h13 : opcodeField w = 13 := BitVec.eq_of_toNat_eq (by rw [hop, h]; rfl)
  unfold decode
  rw [if_pos h13]

theorem decode_invalid {w : Word} (h : 14 ≤ w.toNat / 2 ^ 28) : decode w = .invalid (opcodeField w) := by
  have hop := opcodeField_toNat w
  have h13 : opcodeField w ≠ 13 := by
    intro e; rw [e] at hop; simp at hop; omega
  have hlt : ¬ (opcodeField w).toNat < 13 := by omega
  unfold decode
  rw [if_neg h13, dif_neg hlt]

/-- Opcodes 14 and 15 are no instruction. -/
theorem decodeInstr_error {w : Word} (h : 14 ≤ w.toNat / 2 ^ 28) :
    decodeInstr w = .error (.invalidOpcode (opcodeField w)) := by
  unfold decodeInstr
  rw [decode_invalid h]
  rfl

/-- Every other opcode is one. -/
theorem decodeInstr_ok {w : Word} (h : w.toNat / 2 ^ 28 < 14) : ∃ i, decodeInstr w = .ok i := by
  unfold decodeInstr
  by_cases h13 : w.toNat / 2 ^ 28 = 13
  · rw [decode_loadImmediate h13]; exact ⟨_, rfl⟩
  · rw [decode_threeRegister (by omega)]; exact ⟨_, rfl⟩

/-! ## The encoders -/

theorem regBits_toNat (r : Reg) : (regBits r).toNat = r.val := by
  have := r.isLt
  unfold regBits
  rw [BitVec.toNat_ofNat]
  omega

/-- The word of the three-register format (R108). -/
theorem enc3_ok {op a b c : Container} (hop : op.toNat < 16) (ha : a.toNat < 8) (hb : b.toNat < 8)
    (hc : c.toNat < 8) : ∃ w, enc3 op a b c = .ok w ∧
      w.toNat = op.toNat * 2 ^ 28 + a.toNat * 64 + b.toNat * 8 + c.toNat := by
  obtain ⟨w1, h1, e1⟩ := putUnsigned_add (word := 0) (width := 4) (lsb := 28) (by decide) (by simp) hop
  obtain ⟨w2, h2, e2⟩ := putUnsigned_add (word := w1) (width := 3) (lsb := 6) (by decide)
    (by rw [e1]; simp; omega) ha
  obtain ⟨w3, h3, e3⟩ := putUnsigned_add (word := w2) (width := 3) (lsb := 3) (by decide)
    (by rw [e2, e1]; simp; omega) hb
  obtain ⟨w4, h4, e4⟩ := putUnsigned_add (word := w3) (width := 3) (lsb := 0) (by decide)
    (by rw [e3, e2, e1]; simp; omega) hc
  refine ⟨w4.setWidth 32, ?_, ?_⟩
  · unfold enc3
    rw [h1]; simp only [bind, Except.bind]; rw [h2]; simp only; rw [h3]; simp only; rw [h4]; rfl
  · rw [BitVec.toNat_setWidth, e4, e3, e2, e1]
    simp; omega

/-- The word of the load-immediate format (R108). -/
theorem encLI_ok {dest value : Container} (hd : dest.toNat < 8) (hv : value.toNat < 2 ^ 25) :
    ∃ w, encLI dest value = .ok w ∧ w.toNat = 13 * 2 ^ 28 + dest.toNat * 2 ^ 25 + value.toNat := by
  obtain ⟨w1, h1, e1⟩ := putUnsigned_add (word := 0) (value := 13) (width := 4) (lsb := 28) (by decide)
    (by simp) (by decide)
  obtain ⟨w2, h2, e2⟩ := putUnsigned_add (word := w1) (width := 3) (lsb := 25) (by decide)
    (by rw [e1]; rfl) hd
  obtain ⟨w3, h3, e3⟩ := putUnsigned_add (word := w2) (width := 25) (lsb := 0) (by decide)
    (by rw [e2, e1]; simp) hv
  refine ⟨w3.setWidth 32, ?_, ?_⟩
  · unfold encLI
    rw [h1]; simp only [bind, Except.bind]; rw [h2]; simp only; rw [h3]; rfl
  · rw [BitVec.toNat_setWidth, e3, e2, e1]
    simp; omega

/-- Whatever `enc3` answers has the opcode it was given. -/
theorem enc3_opcode {op a b c : Container} {w : Word} (h : enc3 op a b c = .ok w) :
    (opcodeField w).toNat = op.toNat := by
  unfold enc3 at h
  simp only [bind, Except.bind] at h
  split at h
  · cases h
  · next w1 h1 =>
    split at h
    · cases h
    · next w2 h2 =>
      split at h
      · cases h
      · next w3 h3 =>
        split at h
        · cases h
        · next w4 h4 =>
          have f1 := (putUnsigned_ok h1).1
          obtain ⟨w', hw', e⟩ := enc3_ok (a := a) (b := b) (c := c) f1 (putUnsigned_ok h2).1
            (putUnsigned_ok h3).1 (putUnsigned_ok h4).1
          have : w = w' := by
            unfold enc3 at hw'
            rw [h1] at hw'; simp only [bind, Except.bind] at hw'
            rw [h2] at hw'; simp only at hw'
            rw [h3] at hw'; simp only at hw'
            rw [h4] at hw'; cases hw'; cases h; rfl
          have := (putUnsigned_ok h2).1
          have := (putUnsigned_ok h3).1
          have := (putUnsigned_ok h4).1
          rw [opcodeField_toNat, ‹w = w'›, e]
          omega

/-- Whatever `encLI` answers has opcode 13. -/
theorem encLI_opcode {dest value : Container} {w : Word} (h : encLI dest value = .ok w) :
    (opcodeField w).toNat = 13 := by
  unfold encLI at h
  simp only [bind, Except.bind] at h
  split at h
  · cases h
  · next w1 h1 =>
    split at h
    · cases h
    · next w2 h2 =>
      split at h
      · cases h
      · next w3 h3 =>
        obtain ⟨w', hw', e⟩ := encLI_ok (putUnsigned_ok h2).1 (putUnsigned_ok h3).1
        have : w = w' := by
          unfold encLI at hw'
          rw [h1] at hw'; simp only [bind, Except.bind] at hw'
          rw [h2] at hw'; simp only at hw'
          rw [h3] at hw'; cases hw'; cases h; rfl
        have := (putUnsigned_ok h2).1
        have := (putUnsigned_ok h3).1
        rw [opcodeField_toNat, ‹w = w'›, e]
        omega

end Sys2Proof
end

