-- ==== Sys2Proof/Laws/State.lean ====
section
/-! SUPPORT. One lemma per field per update of the state, so that no proof unfolds a record update. -/

namespace Sys2Proof.Machine

section
variable (s : State) (i j : Reg) (v : Word) (t : SegTable) (r : RunState) (b : Byte)

@[simp] theorem State.setReg_pc : (s.setReg i v).pc = s.pc := rfl
@[simp] theorem State.setReg_run : (s.setReg i v).run = s.run := rfl
@[simp] theorem State.setReg_table : (s.setReg i v).table = s.table := rfl
@[simp] theorem State.setReg_input : (s.setReg i v).input = s.input := rfl
@[simp] theorem State.setReg_inPos : (s.setReg i v).inPos = s.inPos := rfl
@[simp] theorem State.setReg_out : (s.setReg i v).out = s.out := rfl

@[simp] theorem State.setPc_reg : (s.setPc v).reg i = s.reg i := rfl
@[simp] theorem State.setPc_regs : (s.setPc v).regs = s.regs := rfl
@[simp] theorem State.setPc_pc : (s.setPc v).pc = v := rfl
@[simp] theorem State.setPc_run : (s.setPc v).run = s.run := rfl
@[simp] theorem State.setPc_table : (s.setPc v).table = s.table := rfl
@[simp] theorem State.setPc_input : (s.setPc v).input = s.input := rfl
@[simp] theorem State.setPc_inPos : (s.setPc v).inPos = s.inPos := rfl
@[simp] theorem State.setPc_out : (s.setPc v).out = s.out := rfl

@[simp] theorem State.advance_reg : s.advance.reg i = s.reg i := rfl
@[simp] theorem State.advance_regs : s.advance.regs = s.regs := rfl
@[simp] theorem State.advance_pc : s.advance.pc = s.pc + 1#32 := rfl
@[simp] theorem State.advance_run : s.advance.run = s.run := rfl
@[simp] theorem State.advance_table : s.advance.table = s.table := rfl
@[simp] theorem State.advance_input : s.advance.input = s.input := rfl
@[simp] theorem State.advance_inPos : s.advance.inPos = s.inPos := rfl
@[simp] theorem State.advance_out : s.advance.out = s.out := rfl

@[simp] theorem State.setTable_reg : (s.setTable t).reg i = s.reg i := rfl
@[simp] theorem State.setTable_regs : (s.setTable t).regs = s.regs := rfl
@[simp] theorem State.setTable_pc : (s.setTable t).pc = s.pc := rfl
@[simp] theorem State.setTable_run : (s.setTable t).run = s.run := rfl
@[simp] theorem State.setTable_table : (s.setTable t).table = t := rfl
@[simp] theorem State.setTable_input : (s.setTable t).input = s.input := rfl
@[simp] theorem State.setTable_inPos : (s.setTable t).inPos = s.inPos := rfl
@[simp] theorem State.setTable_out : (s.setTable t).out = s.out := rfl

@[simp] theorem State.setRun_reg : (s.setRun r).reg i = s.reg i := rfl
@[simp] theorem State.setRun_regs : (s.setRun r).regs = s.regs := rfl
@[simp] theorem State.setRun_pc : (s.setRun r).pc = s.pc := rfl
@[simp] theorem State.setRun_run : (s.setRun r).run = r := rfl
@[simp] theorem State.setRun_table : (s.setRun r).table = s.table := rfl
@[simp] theorem State.setRun_input : (s.setRun r).input = s.input := rfl
@[simp] theorem State.setRun_inPos : (s.setRun r).inPos = s.inPos := rfl
@[simp] theorem State.setRun_out : (s.setRun r).out = s.out := rfl

@[simp] theorem State.outByte_reg : (s.outByte b).reg i = s.reg i := rfl
@[simp] theorem State.outByte_regs : (s.outByte b).regs = s.regs := rfl
@[simp] theorem State.outByte_pc : (s.outByte b).pc = s.pc := rfl
@[simp] theorem State.outByte_run : (s.outByte b).run = s.run := rfl
@[simp] theorem State.outByte_table : (s.outByte b).table = s.table := rfl
@[simp] theorem State.outByte_input : (s.outByte b).input = s.input := rfl
@[simp] theorem State.outByte_inPos : (s.outByte b).inPos = s.inPos := rfl
@[simp] theorem State.outByte_out : (s.outByte b).out = s.out ++ [b] := rfl

/-- A register read after a register write. -/
theorem State.reg_setReg : (s.setReg i v).reg j = if j = i then v else s.reg j := by
  simp [State.reg, State.setReg, Vector.getElem_set, Fin.ext_iff, eq_comm]

@[simp] theorem State.reg_setReg_self : (s.setReg i v).reg i = v := by simp [State.reg_setReg]

theorem State.reg_setReg_ne (h : j ≠ i) : (s.setReg i v).reg j = s.reg j := by
  simp [State.reg_setReg, h]

/-- `InByte()` with a byte left (R33). -/
theorem State.inByte_of_some (h : s.input[s.inPos]? = some b) :
    s.inByte = (some b, { s with inPos := s.inPos + 1 }) := by simp [State.inByte, h]

/-- `InByte()` at end-of-stream changes nothing (R33). -/
theorem State.inByte_of_none (h : s.input[s.inPos]? = none) : s.inByte = (none, s) := by
  simp [State.inByte, h]

end

/-- Two register files that read alike are equal. -/
theorem regs_ext {p q : State} (h : ∀ i, p.reg i = q.reg i) : p.regs = q.regs := by
  refine Vector.ext fun k hk => ?_
  simpa [State.reg] using h ⟨k, hk⟩

/-- Every register of the reset state reads 0 (R36). -/
@[simp] theorem State.resetWith_reg (prog : List Word) (input : List Byte) (i : Reg) :
    (State.resetWith prog input).reg i = 0#32 := by simp [State.resetWith, State.reg]

end Sys2Proof.Machine
end

