-- ==== Sys2Proof/Laws/Memory.lean ====
section
/-! SUPPORT. The map of mapped segments: what a lookup gives after an insertion or a removal, and that both keep
the canonical form. -/

namespace Sys2Proof.Machine

variable {m : Memory} {id k : Word} {words : Segment}

@[simp] theorem Memory.find_nil : Memory.find [] id = none := rfl

@[simp] theorem Memory.find_insert_self : ∀ m : Memory, Memory.find (Memory.insert m id words) id = some words
  | [] => by simp [Memory.insert, Memory.find]
  | (k, seg) :: rest => by
    have ih := Memory.find_insert_self rest
    by_cases h : id = k
    · simp [Memory.insert, Memory.find, h]
    · by_cases hlt : id.toNat < k.toNat
      · simp [Memory.insert, Memory.find, h, hlt]
      · simp [Memory.insert, Memory.find, h, hlt, ih, Ne.symm h]

theorem Memory.find_insert_ne (hne : k ≠ id) :
    ∀ m : Memory, Memory.find (Memory.insert m id words) k = Memory.find m k
  | [] => by simp [Memory.insert, Memory.find, Ne.symm hne]
  | (j, seg) :: rest => by
    have ih := Memory.find_insert_ne hne rest
    by_cases h : id = j
    · subst h
      simp [Memory.insert, Memory.find, Ne.symm hne]
    · by_cases hlt : id.toNat < j.toNat
      · simp [Memory.insert, Memory.find, h, hlt, Ne.symm hne]
      · simp [Memory.insert, Memory.find, h, hlt, ih]

/-- A lookup after an insertion. -/
theorem Memory.find_insert (m : Memory) (id k : Word) (words : Segment) :
    Memory.find (Memory.insert m id words) k = if k = id then some words else Memory.find m k := by
  by_cases h : k = id
  · subst h; simp
  · simp [h, Memory.find_insert_ne h]

/-- A lookup after a removal: the id is unmapped, every other id is as before. -/
theorem Memory.find_erase (id k : Word) :
    ∀ m : Memory, Memory.find (Memory.erase m id) k = if k = id then none else Memory.find m k
  | [] => by simp [Memory.erase, Memory.find]
  | (j, seg) :: rest => by
    have ih := Memory.find_erase id k rest
    unfold Memory.erase at ih ⊢
    by_cases hj : j = id
    · subst hj
      by_cases hk : k = j
      · simp [hk] at ih ⊢; exact ih
      · simp [hk, Memory.find, Ne.symm hk] at ih ⊢; exact ih
    · by_cases hk : k = id
      · subst hk; simp [hj, Memory.find] at ih ⊢; exact ih
      · by_cases hjk : j = k <;> simp [hj, hk, hjk, Memory.find] at ih ⊢
        exact ih

/-- The ids of a map after an insertion are the old ones and the new one. -/
theorem Memory.mem_insert {p : Word × Segment} :
    ∀ {m : Memory}, p ∈ Memory.insert m id words → p = (id, words) ∨ p ∈ m
  | [], h => by simpa [Memory.insert] using h
  | (k, seg) :: rest, h => by
    unfold Memory.insert at h
    split at h
    · rcases List.mem_cons.1 h with h | h
      · exact .inl h
      · exact .inr (List.mem_cons_of_mem _ h)
    · split at h
      · rcases List.mem_cons.1 h with h | h
        · exact .inl h
        · exact .inr h
      · rcases List.mem_cons.1 h with h | h
        · exact .inr (h ▸ List.mem_cons_self)
        · rcases Memory.mem_insert h with h | h
          · exact .inl h
          · exact .inr (List.mem_cons_of_mem _ h)

/-- An insertion keeps the canonical form. -/
theorem Memory.wf_insert (id : Word) (words : Segment) :
    ∀ {m : Memory}, Memory.wf m → Memory.wf (Memory.insert m id words)
  | [], _ => by simp [Memory.insert, Memory.wf]
  | (k, seg) :: rest, h => by
    have hk := (List.pairwise_cons.1 h).1
    have hrest := (List.pairwise_cons.1 h).2
    unfold Memory.insert
    split
    · next heq => subst heq; exact List.pairwise_cons.2 ⟨hk, hrest⟩
    · next hne =>
      split
      · next hlt =>
        refine List.pairwise_cons.2 ⟨fun p hp => ?_, h⟩
        rcases List.mem_cons.1 hp with rfl | hp
        · exact hlt
        · exact Nat.lt_trans hlt (hk p hp)
      · next hge =>
        refine List.pairwise_cons.2 ⟨fun p hp => ?_, Memory.wf_insert id words hrest⟩
        rcases Memory.mem_insert hp with rfl | hp
        · have : k.toNat ≠ id.toNat := fun e => hne (BitVec.eq_of_toNat_eq e.symm)
          simp only; omega
        · exact hk p hp

/-- A removal keeps the canonical form. -/
theorem Memory.wf_erase (id : Word) (h : Memory.wf m) : Memory.wf (Memory.erase m id) := List.Pairwise.filter _ h

/-- A lookup below every id of the map finds nothing. -/
theorem Memory.find_eq_none_of_lt {m : Memory} (h : ∀ p ∈ m, id.toNat < p.1.toNat) : Memory.find m id = none := by
  induction m with
  | nil => rfl
  | cons p rest ih =>
    obtain ⟨k, seg⟩ := p
    have hk : k ≠ id := by
      intro e
      have := h (k, seg) List.mem_cons_self
      simp [e] at this
    simp [Memory.find, hk, ih fun p hp => h p (List.mem_cons_of_mem _ hp)]

/-- Two memories in canonical form that answer every lookup alike are the same list. -/
theorem Memory.ext_find : ∀ {m n : Memory}, Memory.wf m → Memory.wf n →
    (∀ id, Memory.find m id = Memory.find n id) → m = n
  | [], [], _, _, _ => rfl
  | [], (k, seg) :: _, _, _, h => by simpa [Memory.find] using h k
  | (k, seg) :: _, [], _, _, h => by simpa [Memory.find] using h k
  | (k, seg) :: ms, (j, tseg) :: ns, hm, hn, h => by
    have hm' := List.pairwise_cons.1 hm
    have hn' := List.pairwise_cons.1 hn
    have hkj : k = j := by
      by_contra hne
      rcases Nat.lt_or_ge k.toNat j.toNat with hlt | hge
      · have h2 := h k
        rw [Memory.find_eq_none_of_lt (m := (j, tseg) :: ns)] at h2
        · simp [Memory.find] at h2
        · intro p hp
          rcases List.mem_cons.1 hp with rfl | hp
          · exact hlt
          · exact Nat.lt_trans hlt (hn'.1 p hp)
      · have hlt : j.toNat < k.toNat := by
          have : k.toNat ≠ j.toNat := fun e => hne (BitVec.eq_of_toNat_eq e)
          omega
        have h2 := h j
        rw [Memory.find_eq_none_of_lt (m := (k, seg) :: ms)] at h2
        · simp [Memory.find] at h2
        · intro p hp
          rcases List.mem_cons.1 hp with rfl | hp
          · exact hlt
          · exact Nat.lt_trans hlt (hm'.1 p hp)
    subst hkj
    have hseg : seg = tseg := by simpa [Memory.find] using h k
    subst hseg
    have : ms = ns := Memory.ext_find hm'.2 hn'.2 fun id => by
      by_cases hid : k = id
      · subst hid
        rw [Memory.find_eq_none_of_lt hm'.1, Memory.find_eq_none_of_lt hn'.1]
      · simpa [Memory.find, hid] using h id
    rw [this]

end Sys2Proof.Machine
end

