-- ==== Sys2Proof/Laws/Table.lean ====
section
/-! SUPPORT. The six operations of the segment table: what each can answer, that each keeps the canonical form
of the map, and what a lookup gives afterwards. -/

namespace Sys2Proof.Machine

variable {t t' : SegTable} {id off v n : Word}

/-! ## Reading the table -/

theorem SegTable.cell_of_segment {words : Segment} (h : t.segment id = some words) :
    t.cell id off = words[off.toNat]? := by simp [SegTable.cell, h]

theorem SegTable.cell_of_unmapped (h : t.segment id = none) : t.cell id off = none := by
  simp [SegTable.cell, h, unlistedCell]

theorem SegTable.len_eq_some {k : Nat} :
    t.len id = some k ↔ ∃ words, t.segment id = some words ∧ words.length = k := by
  simp [SegTable.len]

theorem SegTable.len_eq_none : t.len id = none ↔ t.segment id = none := by simp [SegTable.len]

/-- The address names a cell exactly when its id is mapped and its offset is below the length (R50). -/
theorem SegTable.cell_isSome_iff :
    (t.cell id off).isSome ↔ ∃ k, t.len id = some k ∧ off.toNat < k := by
  cases h : t.segment id <;> simp [SegTable.cell, SegTable.len, h, unlistedCell]

/-- `MemRead` answers exactly the cell (R55). -/
theorem SegTable.memRead_eq_ok : t.memRead id off = .ok v ↔ t.cell id off = some v := by
  unfold SegTable.memRead SegTable.cell
  split
  · simp [unlistedCell]
  · split <;> simp_all

/-- `MemRead` of an unmapped id (R55). -/
theorem SegTable.memRead_unmapped (h : t.segment id = none) :
    t.memRead id off = .error (.unmappedAccess id) := by simp [SegTable.memRead, h]

/-- `MemRead` past the end of a mapped segment (R55). -/
theorem SegTable.memRead_outOfBounds {k : Nat} (h : t.len id = some k) (hk : k ≤ off.toNat) :
    t.memRead id off = .error (.outOfBounds id off) := by
  obtain ⟨words, hw, rfl⟩ := SegTable.len_eq_some.1 h
  simp [SegTable.memRead, hw, List.getElem?_eq_none hk]

/-! ## The operations that change it -/

theorem SegTable.memWrite_unmapped (h : t.segment id = none) :
    t.memWrite id off v = .error (.unmappedAccess id) := by simp [SegTable.memWrite, h]

theorem SegTable.memWrite_outOfBounds {k : Nat} (h : t.len id = some k) (hk : k ≤ off.toNat) :
    t.memWrite id off v = .error (.outOfBounds id off) := by
  obtain ⟨words, hw, rfl⟩ := SegTable.len_eq_some.1 h
  simp [SegTable.memWrite, hw, hk]

/-- What `MemWrite` answers when it succeeds (R56). -/
theorem SegTable.memWrite_ok (h : t.memWrite id off v = .ok t') :
    ∃ words, t.segment id = some words ∧ off.toNat < words.length ∧
      t' = { t with seg := Memory.insert t.seg id (words.set off.toNat v) } := by
  unfold SegTable.memWrite at h
  split at h
  · cases h
  · next words hw =>
    split at h
    · cases h
    · next hlt => exact ⟨words, hw, by omega, by simpa using h.symm⟩

/-- A write inside a mapped segment succeeds (R56). -/
theorem SegTable.memWrite_inside {words : Segment} (hw : t.segment id = some words)
    (hlt : off.toNat < words.length) :
    t.memWrite id off v = .ok { t with seg := Memory.insert t.seg id (words.set off.toNat v) } := by
  simp [SegTable.memWrite, hw, Nat.not_le.2 hlt]

theorem SegTable.segment_insert (t : SegTable) (id k : Word) (words : Segment) :
    SegTable.segment { t with seg := Memory.insert t.seg id words } k =
      if k = id then some words else t.segment k := Memory.find_insert _ _ _ _

/-- A cell after one segment is put into the map. -/
theorem SegTable.cell_insert (t : SegTable) (id k off : Word) (words : Segment) :
    SegTable.cell { t with seg := Memory.insert t.seg id words } k off =
      if k = id then words[off.toNat]? else t.cell k off := by
  unfold SegTable.cell
  rw [SegTable.segment_insert]
  by_cases h : k = id <;> simp [h]

/-- A length after one segment is put into the map. -/
theorem SegTable.len_insert (t : SegTable) (id k : Word) (words : Segment) :
    SegTable.len { t with seg := Memory.insert t.seg id words } k =
      if k = id then some words.length else t.len k := by
  unfold SegTable.len
  rw [SegTable.segment_insert]
  by_cases h : k = id <;> simp [h]

/-- What `SegAlloc` answers when it succeeds: the id freed last, else a fresh one (R53). -/
theorem SegTable.segAlloc_ok {i : Word} (h : t.segAlloc n = .ok (i, t')) :
    t'.seg = Memory.insert t.seg i (List.replicate n.toNat 0#32) ∧
      ((t.free = i :: t'.free ∧ t'.nextId = t.nextId) ∨
       (t.free = [] ∧ t'.free = [] ∧ t.nextId < 2 ^ 32 ∧ i = BitVec.ofNat 32 t.nextId ∧
        t'.nextId = t.nextId + 1)) := by
  unfold SegTable.segAlloc at h
  split at h
  · next j rest hf =>
    simp only [Except.ok.injEq, Prod.mk.injEq] at h
    obtain ⟨rfl, rfl⟩ := h
    exact ⟨rfl, .inl ⟨hf, rfl⟩⟩
  · next hf =>
    split at h
    · cases h
    · next hlt =>
      simp only [Except.ok.injEq, Prod.mk.injEq] at h
      obtain ⟨rfl, rfl⟩ := h
      exact ⟨rfl, .inr ⟨hf, hf, by omega, rfl, rfl⟩⟩

theorem SegTable.segAlloc_error {f : FatalFault} :
    t.segAlloc n = .error f ↔ f = .segmentIdExhausted ∧ t.free = [] ∧ 2 ^ 32 ≤ t.nextId := by
  unfold SegTable.segAlloc
  split
  · next hf => simp [hf]
  · next hf =>
    split
    · next h => exact ⟨fun e => ⟨(Except.error.inj e).symm, hf, h⟩, fun e => by rw [e.1]⟩
    · next h => exact ⟨nofun, fun e => absurd e.2.2 h⟩

/-- What `SegFree` answers when it succeeds (R54). -/
theorem SegTable.segFree_ok :
    t.segFree id = .ok t' ↔ id ≠ 0#32 ∧ (t.segment id).isSome ∧
      t' = { t with seg := Memory.erase t.seg id, free := id :: t.free } := by
  unfold SegTable.segFree isProgramSegment SegTable.mapped
  by_cases h0 : id = 0#32
  · simp [h0]
  · by_cases hm : (t.segment id).isSome
    · simpa [h0, hm] using eq_comm
    · simp [h0, hm]

theorem SegTable.segFree_error {f : FatalFault} :
    t.segFree id = .error f ↔
      (id = 0#32 ∧ f = .unmapSegmentZero) ∨ (id ≠ 0#32 ∧ t.segment id = none ∧ f = .unmappedAccess id) := by
  unfold SegTable.segFree isProgramSegment SegTable.mapped
  by_cases h0 : id = 0#32
  · simpa [h0] using eq_comm
  · cases hm : t.segment id
    · simpa [h0] using eq_comm
    · simp [h0]

theorem SegTable.segment_erase (t : SegTable) (id k : Word) (fr : List Word) :
    SegTable.segment { t with seg := Memory.erase t.seg id, free := fr } k =
      if k = id then none else t.segment k := Memory.find_erase _ _ _

/-- What `SegReplaceProgram` answers when it succeeds (R57). -/
theorem SegTable.segReplaceProgram_ok :
    t.segReplaceProgram id = .ok t' ↔ (id = 0#32 ∧ t' = t) ∨
      (id ≠ 0#32 ∧ ∃ words, t.segment id = some words ∧ t' = { t with seg := Memory.insert t.seg 0#32 words }) := by
  unfold SegTable.segReplaceProgram isProgramSegment
  by_cases h0 : id = 0#32
  · simpa [h0] using eq_comm
  · cases hm : t.segment id
    · simp [h0]
    · simpa [h0] using eq_comm

theorem SegTable.segReplaceProgram_error {f : FatalFault} :
    t.segReplaceProgram id = .error f ↔ id ≠ 0#32 ∧ t.segment id = none ∧ f = .unmappedAccess id := by
  unfold SegTable.segReplaceProgram isProgramSegment
  by_cases h0 : id = 0#32
  · simp [h0]
  · cases hm : t.segment id
    · simpa [h0] using eq_comm
    · simp [h0]

@[simp] theorem SegTable.segReleaseAll_segment : t.segReleaseAll.segment id = none := rfl
@[simp] theorem SegTable.segReleaseAll_free : t.segReleaseAll.free = [] := rfl
@[simp] theorem SegTable.segReleaseAll_nextId : t.segReleaseAll.nextId = t.nextId := rfl

/-! ## Every operation keeps the canonical form -/

theorem SegTable.memWrite_wf (h : Memory.wf t.seg) (ht : t.memWrite id off v = .ok t') : Memory.wf t'.seg := by
  obtain ⟨words, -, -, rfl⟩ := SegTable.memWrite_ok ht
  exact Memory.wf_insert _ _ h

theorem SegTable.segAlloc_wf {i : Word} (h : Memory.wf t.seg) (ht : t.segAlloc n = .ok (i, t')) :
    Memory.wf t'.seg := by
  rw [(SegTable.segAlloc_ok ht).1]
  exact Memory.wf_insert _ _ h

theorem SegTable.segFree_wf (h : Memory.wf t.seg) (ht : t.segFree id = .ok t') : Memory.wf t'.seg := by
  obtain ⟨-, -, rfl⟩ := SegTable.segFree_ok.1 ht
  exact Memory.wf_erase _ h

theorem SegTable.segReplaceProgram_wf (h : Memory.wf t.seg) (ht : t.segReplaceProgram id = .ok t') :
    Memory.wf t'.seg := by
  rcases SegTable.segReplaceProgram_ok.1 ht with ⟨-, rfl⟩ | ⟨-, words, -, rfl⟩
  · exact h
  · exact Memory.wf_insert _ _ h

theorem SegTable.segReleaseAll_wf : Memory.wf t.segReleaseAll.seg := List.Pairwise.nil

/-- The reset state's memory is in canonical form. -/
theorem State.reset_wf (prog : List Word) (input : List Byte) :
    Memory.wf (State.resetWith prog input).table.seg := by simp [State.resetWith, Memory.wf]

end Sys2Proof.Machine
end

