-- ==== Sys2Proof/Laws/Exec.lean ====
section
/-! SUPPORT. Everything each instruction can do, once: if its meaning answers `t`, one of the listed cases
holds. Proofs about steps cite these and unfold no meaning. -/

namespace Sys2Proof.Machine

variable {s t : State} {a b c : Reg}

theorem execConditionalMove_cases (h : exec (.conditionalMove a b c) s = .next t) :
    (s.reg c ≠ 0#32 ∧ t = (s.setReg a (s.reg b)).advance) ∨ (s.reg c = 0#32 ∧ t = s.advance) := by
  simp only [exec, execConditionalMove, conditionHolds_iff] at h
  split at h
  · next hc => cases h; exact .inl ⟨hc, rfl⟩
  · next hc => cases h; exact .inr ⟨by simpa using hc, rfl⟩

theorem execSegmentLoad_cases (h : exec (.segmentLoad a b c) s = .next t) :
    (∃ v, s.table.cell (s.reg b) (s.reg c) = some v ∧ t = (s.setReg a v).advance) ∨
    (s.table.segment (s.reg b) = none ∧ t = s.setRun (.faulted (.unmappedAccess (s.reg b)))) ∨
    (∃ n, s.table.len (s.reg b) = some n ∧ n ≤ (s.reg c).toNat ∧
      t = s.setRun (.faulted (.outOfBounds (s.reg b) (s.reg c)))) := by
  simp only [exec, execSegmentLoad, loadAddress] at h
  cases hs : s.table.segment (s.reg b) with
  | none =>
    rw [SegTable.memRead_unmapped hs] at h
    cases h; exact .inr (.inl ⟨rfl, rfl⟩)
  | some words =>
    have hl : s.table.len (s.reg b) = some words.length := SegTable.len_eq_some.2 ⟨words, hs, rfl⟩
    by_cases hk : words.length ≤ (s.reg c).toNat
    · rw [SegTable.memRead_outOfBounds hl hk] at h
      cases h; exact .inr (.inr ⟨_, hl, hk, rfl⟩)
    · obtain ⟨v, hv⟩ := Option.isSome_iff_exists.1 (SegTable.cell_isSome_iff.2 ⟨_, hl, Nat.lt_of_not_le hk⟩)
      rw [SegTable.memRead_eq_ok.2 hv] at h
      cases h; exact .inl ⟨v, hv, rfl⟩

theorem execSegmentStore_cases (h : exec (.segmentStore a b c) s = .next t) :
    (∃ words, s.table.segment (s.reg a) = some words ∧ (s.reg b).toNat < words.length ∧
      t = (s.setTable { s.table with
        seg := Memory.insert s.table.seg (s.reg a) (words.set (s.reg b).toNat (s.reg c)) }).advance) ∨
    (s.table.segment (s.reg a) = none ∧ t = s.setRun (.faulted (.unmappedAccess (s.reg a)))) ∨
    (∃ n, s.table.len (s.reg a) = some n ∧ n ≤ (s.reg b).toNat ∧
      t = s.setRun (.faulted (.outOfBounds (s.reg a) (s.reg b)))) := by
  simp only [exec, execSegmentStore, storeAddress] at h
  cases hs : s.table.segment (s.reg a) with
  | none =>
    rw [SegTable.memWrite_unmapped hs] at h
    cases h; exact .inr (.inl ⟨rfl, rfl⟩)
  | some words =>
    have hl : s.table.len (s.reg a) = some words.length := SegTable.len_eq_some.2 ⟨words, hs, rfl⟩
    by_cases hk : words.length ≤ (s.reg b).toNat
    · rw [SegTable.memWrite_outOfBounds hl hk] at h
      cases h; exact .inr (.inr ⟨_, hl, hk, rfl⟩)
    · rw [SegTable.memWrite_inside hs (Nat.lt_of_not_le hk)] at h
      cases h; exact .inl ⟨words, rfl, Nat.lt_of_not_le hk, rfl⟩

theorem execDivide_cases (h : exec (.divide a b c) s = .next t) :
    (s.reg c ≠ 0#32 ∧
      t = (s.setReg a (BitVec.ofNat 32 ((s.reg b).toNat / (s.reg c).toNat))).advance) ∨
    (s.reg c = 0#32 ∧ t = s.setRun (.faulted .divideByZero)) := by
  simp only [exec, execDivide] at h
  by_cases hc : s.reg c = 0#32
  · rw [aluDiv_zero hc] at h
    cases h; exact .inr ⟨hc, rfl⟩
  · rw [aluDiv_nonzero hc] at h
    cases h; exact .inl ⟨hc, rfl⟩

theorem execMapSegment_cases (h : exec (.mapSegment b c) s = .next t) :
    (∃ i tbl, tbl.seg = Memory.insert s.table.seg i (List.replicate (s.reg c).toNat 0#32) ∧
      ((s.table.free = i :: tbl.free ∧ tbl.nextId = s.table.nextId) ∨
       (s.table.free = [] ∧ tbl.free = [] ∧ s.table.nextId < 2 ^ 32 ∧
        i = BitVec.ofNat 32 s.table.nextId ∧ tbl.nextId = s.table.nextId + 1)) ∧
      t = ((s.setTable tbl).setReg b i).advance) ∨
    (s.table.free = [] ∧ 2 ^ 32 ≤ s.table.nextId ∧ t = s.setRun (.faulted .segmentIdExhausted)) := by
  simp only [exec, execMapSegment] at h
  split at h
  · next i tbl hok =>
    cases h
    exact .inl ⟨i, tbl, (SegTable.segAlloc_ok hok).1, (SegTable.segAlloc_ok hok).2, rfl⟩
  · next f herr =>
    obtain ⟨rfl, hf, hn⟩ := SegTable.segAlloc_error.1 herr
    cases h; exact .inr ⟨hf, hn, rfl⟩

theorem execUnmapSegment_cases (h : exec (.unmapSegment c) s = .next t) :
    (s.reg c ≠ 0#32 ∧ (s.table.segment (s.reg c)).isSome ∧
      t = (s.setTable { s.table with
        seg := Memory.erase s.table.seg (s.reg c), free := s.reg c :: s.table.free }).advance) ∨
    (s.reg c = 0#32 ∧ t = s.setRun (.faulted .unmapSegmentZero)) ∨
    (s.reg c ≠ 0#32 ∧ s.table.segment (s.reg c) = none ∧
      t = s.setRun (.faulted (.unmappedAccess (s.reg c)))) := by
  simp only [exec, execUnmapSegment] at h
  split at h
  · next tbl hok =>
    obtain ⟨h0, hm, rfl⟩ := SegTable.segFree_ok.1 hok
    cases h; exact .inl ⟨h0, hm, rfl⟩
  · next f herr =>
    cases h
    rcases SegTable.segFree_error.1 herr with ⟨h0, rfl⟩ | ⟨h0, hm, rfl⟩
    · exact .inr (.inl ⟨h0, rfl⟩)
    · exact .inr (.inr ⟨h0, hm, rfl⟩)

theorem execLoadProgram_cases (h : exec (.loadProgram b c) s = .next t) :
    (s.reg b = 0#32 ∧ t = s.setPc (s.reg c)) ∨
    (s.reg b ≠ 0#32 ∧ ∃ words, s.table.segment (s.reg b) = some words ∧
      t = (s.setTable { s.table with seg := Memory.insert s.table.seg 0#32 words }).setPc (s.reg c)) ∨
    (s.reg b ≠ 0#32 ∧ s.table.segment (s.reg b) = none ∧
      t = s.setRun (.faulted (.unmappedAccess (s.reg b)))) := by
  simp only [exec, execLoadProgram] at h
  split at h
  · next tbl hok =>
    rcases SegTable.segReplaceProgram_ok.1 hok with ⟨h0, rfl⟩ | ⟨h0, words, hw, rfl⟩
    · cases h; exact .inl ⟨h0, rfl⟩
    · cases h; exact .inr (.inl ⟨h0, words, hw, rfl⟩)
  · next f herr =>
    obtain ⟨h0, hm, rfl⟩ := SegTable.segReplaceProgram_error.1 herr
    cases h; exact .inr (.inr ⟨h0, hm, rfl⟩)

theorem execOutput_cases (h : exec (.output c) s = .next t) :
    (s.reg c = sentinel ∧ t = s.advance) ∨
    ((s.reg c).toNat ≤ 255 ∧ t = (s.outByte ((s.reg c).setWidth 8)).advance) ∨
    (s.reg c ≠ sentinel ∧ 256 ≤ (s.reg c).toNat ∧ t = s.setRun (.faulted (.outputRange (s.reg c)))) := by
  simp only [exec, execOutput, isSentinel_iff, exceedsByte_iff] at h
  split at h
  · next h1 => cases h; exact .inl ⟨h1, rfl⟩
  · next h1 =>
    split at h
    · next h2 => cases h; exact .inr (.inr ⟨h1, h2, rfl⟩)
    · next h2 => cases h; exact .inr (.inl ⟨by omega, rfl⟩)

theorem execInput_cases (h : exec (.input c) s = .next t) :
    (∃ byte, s.input[s.inPos]? = some byte ∧
      t = (State.setReg { s with inPos := s.inPos + 1 } c (byte.setWidth 32)).advance) ∨
    (s.input[s.inPos]? = none ∧ t = (s.setReg c sentinel).advance) := by
  simp only [exec, execInput] at h
  cases hb : s.input[s.inPos]? with
  | some byte =>
    rw [State.inByte_of_some s byte hb] at h
    cases h; exact .inl ⟨byte, rfl, rfl⟩
  | none =>
    rw [State.inByte_of_none s hb] at h
    cases h; exact .inr ⟨rfl, rfl⟩

theorem execAdd_eq : exec (.add a b c) s = .next (s.setReg a (aluAdd (s.reg b) (s.reg c))).advance := rfl

theorem execMultiply_eq : exec (.multiply a b c) s = .next (s.setReg a (aluMul (s.reg b) (s.reg c))).advance := rfl

theorem execNand_eq : exec (.nand a b c) s = .next (s.setReg a (aluNand (s.reg b) (s.reg c))).advance := rfl

theorem execLoadImmediate_eq {value : Word} :
    exec (.loadImmediate a value) s = .next (s.setReg a value).advance := rfl

theorem execHalt_eq : exec .halt s = .next ((s.setTable s.table.segReleaseAll).setRun .halted) := rfl

/-- Every instruction answers a next state: none stops the model. -/
theorem exec_answers_next (i : Instr) (s : State) : ∃ t, exec i s = .next t := by
  cases i with
  | conditionalMove a b c => simp only [exec, execConditionalMove]; split <;> exact ⟨_, rfl⟩
  | segmentLoad a b c => simp only [exec, execSegmentLoad]; split <;> exact ⟨_, rfl⟩
  | segmentStore a b c => simp only [exec, execSegmentStore]; split <;> exact ⟨_, rfl⟩
  | add a b c => exact ⟨_, rfl⟩
  | multiply a b c => exact ⟨_, rfl⟩
  | divide a b c => simp only [exec, execDivide]; split <;> exact ⟨_, rfl⟩
  | nand a b c => exact ⟨_, rfl⟩
  | halt => exact ⟨_, rfl⟩
  | mapSegment b c => simp only [exec, execMapSegment]; split <;> exact ⟨_, rfl⟩
  | unmapSegment c => simp only [exec, execUnmapSegment]; split <;> exact ⟨_, rfl⟩
  | output c => simp only [exec, execOutput]; split <;> [skip; split] <;> exact ⟨_, rfl⟩
  | input c => simp only [exec, execInput]; split <;> exact ⟨_, rfl⟩
  | loadProgram b c => simp only [exec, execLoadProgram]; split <;> exact ⟨_, rfl⟩
  | loadImmediate dest value => exact ⟨_, rfl⟩

end Sys2Proof.Machine
end

