-- ==== Sys2Proof/Laws/PerInstr.lean ====
section
/-! SUPPORT. The statements made per instruction. Family `EncodeOpcode`: the encoding of an instruction has in bits
31:28 the opcode the table gives it (30_encoding.md R102, R108). -/

namespace Sys2Proof.Laws.EncodeOpcode

/-- The opcode of R102. -/
def opcodeOf : Instr → Nat
  | .conditionalMove _ _ _ => 0
  | .segmentLoad _ _ _ => 1
  | .segmentStore _ _ _ => 2
  | .add _ _ _ => 3
  | .multiply _ _ _ => 4
  | .divide _ _ _ => 5
  | .nand _ _ _ => 6
  | .halt => 7
  | .mapSegment _ _ => 8
  | .unmapSegment _ => 9
  | .output _ => 10
  | .input _ => 11
  | .loadProgram _ _ => 12
  | .loadImmediate _ _ => 13

/-- Whatever word encodes the instruction, its opcode field is the table's. -/
def Statement (i : Instr) : Prop := ∀ w, encode i = .ok w → (opcodeField w).toNat = opcodeOf i

theorem conditionalMove (a b c : Reg) : Statement (.conditionalMove a b c) := fun _ => enc3_opcode
theorem segmentLoad (a b c : Reg) : Statement (.segmentLoad a b c) := fun _ => enc3_opcode
theorem segmentStore (a b c : Reg) : Statement (.segmentStore a b c) := fun _ => enc3_opcode
theorem add (a b c : Reg) : Statement (.add a b c) := fun _ => enc3_opcode
theorem multiply (a b c : Reg) : Statement (.multiply a b c) := fun _ => enc3_opcode
theorem divide (a b c : Reg) : Statement (.divide a b c) := fun _ => enc3_opcode
theorem nand (a b c : Reg) : Statement (.nand a b c) := fun _ => enc3_opcode
theorem halt : Statement .halt := fun _ => enc3_opcode
theorem mapSegment (b c : Reg) : Statement (.mapSegment b c) := fun _ => enc3_opcode
theorem unmapSegment (c : Reg) : Statement (.unmapSegment c) := fun _ => enc3_opcode
theorem output (c : Reg) : Statement (.output c) := fun _ => enc3_opcode
theorem input (c : Reg) : Statement (.input c) := fun _ => enc3_opcode
theorem loadProgram (b c : Reg) : Statement (.loadProgram b c) := fun _ => enc3_opcode
theorem loadImmediate (dest : Reg) (value : Word) : Statement (.loadImmediate dest value) := fun _ => encLI_opcode

end Sys2Proof.Laws.EncodeOpcode
end

