-- ==== Sys2Proof/Laws/Step.lean ====
section
/-! SUPPORT. What a fetch finds and what a step is: the facts every proof about runs starts from. -/

namespace Sys2Proof.Machine

variable {s t : State}

/-! ## The fetch -/

/-- A fetch finds a word exactly where `(0, pc)` names a cell (R132, R133). -/
theorem State.fetch_word {w : Word} : s.fetch = .word w ↔ s.table.cell 0#32 s.pc = some w := by
  unfold State.fetch
  cases hs : s.table.segment 0#32 with
  | none => simp [SegTable.len, hs, SegTable.cell, unlistedCell]
  | some prog =>
    simp only [SegTable.len, hs, Option.map_some, SegTable.cell, SegTable.memRead]
    by_cases hk : prog.length ≤ s.pc.toNat
    · simp [hk]
    · have hlt : s.pc.toNat < prog.length := by omega
      simp [hk, List.getElem?_eq_getElem hlt]

/-- A fetch finds the end of the program exactly where `pc >= len(0)` (R132). -/
theorem State.fetch_end : s.fetch = .endOfProgram ↔ ∃ n, s.table.len 0#32 = some n ∧ n ≤ s.pc.toNat := by
  unfold State.fetch
  cases hs : s.table.segment 0#32 with
  | none => simp [SegTable.len, hs]
  | some prog =>
    simp only [SegTable.len, hs, Option.map_some, SegTable.memRead]
    by_cases hk : prog.length ≤ s.pc.toNat
    · simp [hk]
    · have hlt : s.pc.toNat < prog.length := by omega
      simp [hk, List.getElem?_eq_getElem hlt]

theorem State.fetch_none : s.fetch = .noProgramSegment ↔ s.table.segment 0#32 = none := by
  unfold State.fetch
  cases hs : s.table.segment 0#32 with
  | none => simp [SegTable.len, hs]
  | some prog =>
    simp only [SegTable.len, hs, Option.map_some, SegTable.memRead]
    by_cases hk : prog.length ≤ s.pc.toNat
    · simp [hk]
    · have hlt : s.pc.toNat < prog.length := by omega
      simp [hk, List.getElem?_eq_getElem hlt]

/-- The fetch cannot fault (R133). -/
theorem State.fetch_ne_readFault (f : FatalFault) : s.fetch ≠ .readFault f := by
  unfold State.fetch
  cases hs : s.table.segment 0#32 with
  | none => simp [SegTable.len, hs]
  | some prog =>
    simp only [SegTable.len, hs, Option.map_some, SegTable.memRead]
    by_cases hk : prog.length ≤ s.pc.toNat
    · simp [hk]
    · have hlt : s.pc.toNat < prog.length := by omega
      simp [hk, List.getElem?_eq_getElem hlt]

/-! ## The step -/

theorem step_of_running (h : s.run = .running) : step s = cycle s := by
  simp [step, advanceSequencer, h]

theorem cycle_of_fetch {w : Word} (h : s.fetch = .word w) :
    cycle s = match decodeInstr w with
      | .ok i => exec i s
      | .error _ => raise (.invalidOpcode w) s := by
  unfold cycle
  rw [h]
  try rfl

/-- All that a step from a `Running` state can be. -/
theorem step_running_cases (h : s.run = .running) :
    (s.table.segment 0#32 = none ∧ step s = .fault .programSegmentUnmapped) ∨
    ((∃ n, s.table.len 0#32 = some n ∧ n ≤ s.pc.toNat) ∧ step s = .next (s.setRun .ended)) ∨
    (∃ w e, s.table.cell 0#32 s.pc = some w ∧ decodeInstr w = .error e ∧ step s = raise (.invalidOpcode w) s) ∨
    (∃ w i, s.table.cell 0#32 s.pc = some w ∧ decodeInstr w = .ok i ∧ step s = exec i s) := by
  rw [step_of_running h]
  cases hf : s.fetch with
  | noProgramSegment => exact .inl ⟨State.fetch_none.1 hf, by simp [cycle, hf]⟩
  | endOfProgram => exact .inr (.inl ⟨State.fetch_end.1 hf, by simp [cycle, hf]⟩)
  | readFault f => exact absurd hf (State.fetch_ne_readFault f)
  | word w =>
    have hc := State.fetch_word.1 hf
    rw [cycle_of_fetch hf]
    cases hd : decodeInstr w with
    | error e => exact .inr (.inr (.inl ⟨w, e, hc, hd, rfl⟩))
    | ok i => exact .inr (.inr (.inr ⟨w, i, hc, hd, rfl⟩))

end Sys2Proof.Machine
end

