-- ==== Sys2Proof/Laws/Runs.lean ====
section
/-! SUPPORT. Runs of several steps: one step more, and a state that steps to itself. -/

namespace Sys2Proof.Machine

variable {s t : State} {k : Nat}

/-- The host's run, one step more. -/
theorem core_run_succ (M : Host.Core) (k : Nat) (s : M.State) :
    M.run (k + 1) s = match M.step s with
      | .next s' => M.run k s'
      | .fault r => .fault r
      | .refused r => .refused r := by rfl

theorem runsFor_zero : runsFor 0 s t ↔ t = s :=
  ⟨fun h => by cases h; rfl, fun h => by rw [h]; rfl⟩

/-- `k + 1` steps are one step and then `k`. -/
theorem runsFor_succ : runsFor (k + 1) s t ↔ ∃ u, step s = .next u ∧ runsFor k u t := by
  unfold runsFor
  rw [core_run_succ core k s, show core.step s = step s from rfl]
  cases h : step s with
  | next u => exact ⟨fun h => ⟨u, rfl, h⟩, fun ⟨v, hv, h⟩ => by cases hv; exact h⟩
  | fault r => exact ⟨nofun, fun ⟨v, hv, _⟩ => by cases hv⟩
  | refused r => exact ⟨nofun, fun ⟨v, hv, _⟩ => by cases hv⟩

theorem runsFor_of_fixed (h : step s = .next s) : ∀ k, runsFor k s s
  | 0 => rfl
  | k + 1 => runsFor_succ.2 ⟨s, h, runsFor_of_fixed h k⟩

/-- A run state is `Running` or terminal (R26). -/
theorem RunState.terminal_iff {r : RunState} : r.terminal = true ↔ r ≠ .running := by
  cases r <;> simp [RunState.terminal]

theorem step_terminal (h : s.run.terminal = true) : step s = .next s := by
  unfold step advanceSequencer
  cases hr : s.run <;> simp_all [RunState.terminal]

end Sys2Proof.Machine
end

