-- ==== Sys2Proof/Machine/Assembly.lean ====
section
/-! DEFINITION. The assembly notation of 30_encoding.md R110 (D22), as text of an instruction. Reading text back
is an assembler's work and is out of scope (00_scope.md R5 (1)). -/

namespace Sys2Proof.Machine

/-- `r0` .. `r7` (R110). -/
def regName (r : Reg) : String :=
  match r with
  | 0 => "r0" | 1 => "r1" | 2 => "r2" | 3 => "r3" | 4 => "r4" | 5 => "r5" | 6 => "r6" | 7 => "r7"

/-- The mnemonic, the name of R102. -/
def mnemonic : Instr → String
  | .conditionalMove _ _ _ => "ConditionalMove"
  | .segmentLoad _ _ _ => "SegmentLoad"
  | .segmentStore _ _ _ => "SegmentStore"
  | .add _ _ _ => "Add"
  | .multiply _ _ _ => "Multiply"
  | .divide _ _ _ => "Divide"
  | .nand _ _ _ => "Nand"
  | .halt => "Halt"
  | .mapSegment _ _ => "MapSegment"
  | .unmapSegment _ => "UnmapSegment"
  | .output _ => "Output"
  | .input _ => "Input"
  | .loadProgram _ _ => "LoadProgram"
  | .loadImmediate _ _ => "LoadImmediate"

/-- The operands in the order of R110's table, an immediate as a decimal number. -/
def operandTexts : Instr → List String
  | .conditionalMove a b c | .segmentLoad a b c | .segmentStore a b c | .add a b c | .multiply a b c
  | .divide a b c | .nand a b c => [regName a, regName b, regName c]
  | .halt => []
  | .mapSegment b c | .loadProgram b c => [regName b, regName c]
  | .unmapSegment c | .output c | .input c => [regName c]
  | .loadImmediate dest value => [regName dest, toString value.toNat]

/-- The line of assembly of an instruction. -/
def assemblyText (i : Instr) : String :=
  match operandTexts i with
  | [] => mnemonic i
  | ops => mnemonic i ++ " " ++ String.intercalate ", " ops

end Sys2Proof.Machine
end

