-- ==== Sys2Proof/Tests/Slice0.lean ====
section
/-! SUPPORT. The model's own tests. Expected results are the spec's: 95_test_vectors.md (E1 to E8, V-…) and the
encodings of 30_encoding.md. The `witness_…` theorems show, for each obligation with hypotheses, concrete states and
operands that meet them, each clause at a boundary value. -/

namespace Sys2Proof.Tests

open Sys2Proof.Machine Sys2Proof.Claims

/-! ## Small states -/

/-- The state with some registers set. -/
def withRegs (l : List (Reg × Word)) (s : State) : State := l.foldl (fun s p => s.setReg p.1 p.2) s

/-- The convention of 95_test_vectors.md: reset with the one word `w` as the program and some registers set. -/
def one (w : Word) (l : List (Reg × Word)) : State := withRegs l (State.resetWith [w] [])

/-- The same over a given segment table. -/
def onTable (t : SegTable) (l : List (Reg × Word)) : State := withRegs l (State.reset.setTable t)

/-- "seg1": `seg[1] = [0xAA, 0xBB, 0xCC]`, `next_id = 2` beside a program. -/
def seg1Table (prog : List Word) : SegTable :=
  { seg := [(0#32, prog), (1#32, [0xAA#32, 0xBB#32, 0xCC#32])], free := [], nextId := 2 }

/-- A one-word program over `seg1Table`. -/
def seg1 (w : Word) (l : List (Reg × Word)) : State := onTable (seg1Table [w]) l

/-- Reset with an input stream. -/
def reading (w : Word) (input : List Byte) (l : List (Reg × Word)) : State := withRegs l (State.resetWith [w] input)

/-- The next state of an outcome. -/
def nextOf : Host.Outcome State Fault Refusal → State
  | .next t => t
  | .fault _ | .refused _ => State.reset

/-- The state after one step. -/
def after (s : State) : State := nextOf (step s)

theorem exec_nextOf (i : Instr) (s : State) : exec i s = .next (nextOf (exec i s)) := by
  obtain ⟨t, ht⟩ := exec_answers_next i s
  rw [ht]; rfl

/-! ## Well-formedness -/

theorem test_wellFormed_largest_immediate : (Instr.loadImmediate 7 0x1FFFFFF#32).WellFormed := by decide
theorem test_illFormed_immediate_refused : ¬(Instr.loadImmediate 0 0x2000000#32).WellFormed := by decide
theorem test_illFormed_has_no_encoding : encode (.loadImmediate 0 0x2000000#32) = .error .overflowError := by decide

/-! ## Decoding: every constructor, by a word written from the spec's encoding, and the ignored bits -/

theorem test_decode_conditionalMove : decodeInstr 0x00000053#32 = .ok (.conditionalMove 1 2 3) := by decide
theorem test_decode_segmentLoad : decodeInstr 0x10000113#32 = .ok (.segmentLoad 4 2 3) := by decide
theorem test_decode_segmentStore : decodeInstr 0x2000009C#32 = .ok (.segmentStore 2 3 4) := by decide
theorem test_decode_add : decodeInstr 0x300001FA#32 = .ok (.add 7 7 2) := by decide
theorem test_decode_multiply : decodeInstr 0x480000D0#32 = .ok (.multiply 3 2 0) := by decide
theorem test_decode_divide : decodeInstr 0x5000008B#32 = .ok (.divide 2 1 3) := by decide
theorem test_decode_nand : decodeInstr 0x600000C0#32 = .ok (.nand 3 0 0) := by decide
theorem test_decode_halt : decodeInstr 0x7FFFFFFF#32 = .ok .halt := by decide
theorem test_decode_mapSegment : decodeInstr 0x80000011#32 = .ok (.mapSegment 2 1) := by decide
theorem test_decode_unmapSegment : decodeInstr 0x90000002#32 = .ok (.unmapSegment 2) := by decide
theorem test_decode_output : decodeInstr 0xAFFFFFF9#32 = .ok (.output 1) := by decide
theorem test_decode_input : decodeInstr 0xB0000004#32 = .ok (.input 4) := by decide
theorem test_decode_loadProgram : decodeInstr 0xC0000013#32 = .ok (.loadProgram 2 3) := by decide
theorem test_decode_loadImmediate : decodeInstr 0xD3000001#32 = .ok (.loadImmediate 1 0x1000001#32) := by decide
theorem test_decode_invalid14 : decode 0xE1234567#32 = .invalid 14 := by decide
theorem test_decode_invalid15 : decode 0xFFFFFFFF#32 = .invalid 15 := by decide
theorem test_decode_all_fields_kept : decode 0x7FFFFFFF#32 = .threeRegister 7 7 7 7 := by decide
theorem test_decode_padding_ends :
    decode 0x30000253#32 = .threeRegister 3 1 2 3 ∧ decode 0x38000053#32 = .threeRegister 3 1 2 3 ∧
    decode 0x30000153#32 = .threeRegister 3 5 2 3 := by decide
theorem test_decodeBytes_bigEndian :
    decodeBytes [0xD0, 0x00, 0x00, 0x48, 0xA0] = .ok (.loadImmediate 0 72#32, [0xA0]) := by decide
theorem test_decodeBytes_truncated : decodeBytes [0x70, 0x00, 0x00] = .error .truncated := by decide
theorem test_decodeTableWord : decodeTableWord 32 0x80000011 = some (.mapSegment 2 1) := by decide
theorem test_decodeTableWord_refuses : decodeTableWord 32 0xE0000000 = none := by decide

/-- E8, V-D3: canonical words. -/
theorem test_encode : encode (.loadProgram 7 7) = .ok 0xC000003F#32 ∧
    enc3 12 7 7 7 = .ok 0xC00001FF#32 ∧ encode (.loadImmediate 7 0x1FFFFFF#32) = .ok 0xDFFFFFFF#32 ∧
    encode (.segmentStore 2 0 3) = .ok 0x20000083#32 := by decide

/-! ## The codec (E6, V-X…) -/

theorem test_codec_roundTrip :
    putUnsigned 0xDEADBEEFCAFEF00D 12 20 0xABC (by decide) = .ok 0xDEADBEEFABCEF00D ∧
    getUnsigned 0xDEADBEEFABCEF00D 12 20 (by decide) = 0xABC := by decide
theorem test_codec_get : getUnsigned 0xFFFFFFFF00000000 32 32 (by decide) = 0xFFFFFFFF ∧
    getUnsigned 0x8000000000000000 1 63 (by decide) = 1 ∧ getUnsigned 0xABCD 0 7 (by decide) = 0 := by decide
theorem test_codec_put : putUnsigned 0xFFFFFFFF 3 6 0 (by decide) = .ok 0xFFFFFE3F ∧
    putUnsigned 0x12345678 8 8 0xAB (by decide) = .ok 0x1234AB78 ∧
    putUnsigned 0xFFFFFFFFFFFFFFFF 1 63 0 (by decide) = .ok 0x7FFFFFFFFFFFFFFF ∧
    putUnsigned 0xFFFF 0 4 1 (by decide) = .error .overflowError := by decide
theorem test_codec_signed : getSigned 0xF0 4 4 (by decide) = -1 ∧ getSigned 0x7F 8 0 (by decide) = 127 ∧
    putSigned 0 8 8 (-128) (by decide) = .ok 0x8000 ∧ putSigned 0 4 0 8 (by decide) = .error .overflowError ∧
    putSigned 0 4 0 (-9) (by decide) = .error .overflowError := by decide

/-! ## One step of each instruction -/

/-- V-M2, V-M3. -/
theorem test_conditionalMove_zero :
    (after (one 0x00000053#32 [(1, 0x11#32), (2, 0x22#32), (3, 0#32)])).reg 1 = 0x11#32 := by decide
theorem test_conditionalMove_topBit :
    (after (one 0x00000053#32 [(1, 0x11#32), (2, 0x22#32), (3, 0xFFFFFFFF#32)])).reg 1 = 0x22#32 := by decide
/-- V-M5, V-M6. -/
theorem test_loadImmediate_zeroExtends :
    (after (one 0xDFFFFFFF#32 [])).reg 7 = 0x01FFFFFF#32 ∧ (after (one 0xDFFFFFFF#32 [])).pc = 1#32 := by decide
theorem test_loadImmediate_replaces : (after (one 0xD6000000#32 [(3, 0xDEADBEEF#32)])).reg 3 = 0#32 := by decide
/-- V-A1, V-A3. -/
theorem test_add_wraps :
    (after (one 0x30000053#32 [(1, 7#32), (2, 0xFFFFFFFF#32), (3, 1#32)])).reg 1 = 0#32 := by decide
theorem test_add_same_register : (after (one 0x30000049#32 [(1, 0xC0000001#32)])).reg 1 = 0x80000002#32 := by decide
/-- V-A6, V-A7. -/
theorem test_multiply_low_half :
    (after (one 0x40000053#32 [(2, 0xFFFFFFFF#32), (3, 0xFFFFFFFF#32)])).reg 1 = 1#32 := by decide
theorem test_multiply_drops_carry :
    (after (one 0x40000053#32 [(2, 0x12345678#32), (3, 0x10#32)])).reg 1 = 0x23456780#32 := by decide
/-- V-A10, V-A12. -/
theorem test_divide_unsigned :
    (after (one 0x5000008B#32 [(1, 0x80000000#32), (2, 5#32), (3, 0xFFFFFFFF#32)])).reg 2 = 0#32 := by decide
theorem test_divide_by_zero :
    after (one 0x5000008B#32 [(1, 7#32), (2, 0x55#32)]) =
      (one 0x5000008B#32 [(1, 7#32), (2, 0x55#32)]).setRun (.faulted .divideByZero) := by decide
/-- V-A14, V-A15. -/
theorem test_nand :
    (after (one 0x60000053#32 [(2, 0xF0F0F0F0#32), (3, 0xFF00FF00#32)])).reg 1 = 0x0FFF0FFF#32 := by decide
theorem test_nand_not : (after (one 0x60000052#32 [(2, 0x12345678#32)])).reg 1 = 0xEDCBA987#32 := by decide
/-- V-S1, V-S6. -/
theorem test_segmentLoad : (after (seg1 0x10000113#32 [(2, 1#32), (3, 2#32)])).reg 4 = 0xCC#32 := by decide
theorem test_segmentLoad_unmapped_first :
    (after (seg1 0x10000113#32 [(2, 5#32), (3, 99#32)])).run = .faulted (.unmappedAccess 5#32) := by decide
/-- V-S8, V-S11. -/
theorem test_segmentStore :
    (after (seg1 0x2000009C#32 [(2, 1#32), (3, 0#32), (4, 0xDEADBEEF#32)])).table.segment 1#32 =
      some [0xDEADBEEF#32, 0xBB#32, 0xCC#32] := by decide
theorem test_segmentStore_own_word :
    (after (one 0x20000001#32 [(1, 0x70000000#32)])).table.segment 0#32 = some [0x70000000#32] := by decide
/-- V-S14, V-S15. -/
theorem test_mapSegment_reuses :
    (after (onTable ⟨[(0#32, [0x80000011#32]), (1#32, [1#32]), (3#32, [3#32])], [2#32], 4⟩ [(1, 2#32)])).table =
      ⟨[(0#32, [0x80000011#32]), (1#32, [1#32]), (2#32, [0#32, 0#32]), (3#32, [3#32])], [], 4⟩ := by decide
theorem test_mapSegment_reads_length_first :
    (after (one 0x80000009#32 [(1, 2#32)])).reg 1 = 1#32 ∧
    (after (one 0x80000009#32 [(1, 2#32)])).table.segment 1#32 = some [0#32, 0#32] := by decide
/-- V-S19, V-S20. -/
theorem test_unmapSegment :
    (after (seg1 0x90000002#32 [(2, 1#32)])).table =
      { seg := [(0#32, [0x90000002#32])], free := [1#32], nextId := 2 } := by decide
theorem test_unmapSegment_zero : (after (seg1 0x90000002#32 [])).run = .faulted .unmapSegmentZero := by decide
/-- V-K1. -/
theorem test_halt : (after (seg1 0x70000000#32 [(1, 5#32)])).table = { seg := [], free := [], nextId := 2 } ∧
    (after (seg1 0x70000000#32 [(1, 5#32)])).run = .halted ∧
    (after (seg1 0x70000000#32 [(1, 5#32)])).pc = 0#32 := by decide
/-- V-K5, V-K6. -/
theorem test_loadProgram_copies :
    (after (seg1 0xC0000013#32 [(2, 1#32), (3, 1#32)])).table.segment 0#32 = some [0xAA#32, 0xBB#32, 0xCC#32] ∧
    (after (seg1 0xC0000013#32 [(2, 1#32), (3, 1#32)])).pc = 1#32 := by decide
theorem test_loadProgram_unmapped :
    (after (seg1 0xC0000013#32 [(2, 4#32), (3, 1#32)])).run = .faulted (.unmappedAccess 4#32) ∧
    (after (seg1 0xC0000013#32 [(2, 4#32), (3, 1#32)])).pc = 0#32 := by decide
/-- V-I2, V-I5. -/
theorem test_output_byte : (after (one 0xA0000001#32 [(1, 255#32)])).out = [0xFF] := by decide
theorem test_output_sentinel : (after (one 0xA0000001#32 [(1, 0xFFFFFFFF#32)])).out = [] ∧
    (after (one 0xA0000001#32 [(1, 0xFFFFFFFF#32)])).pc = 1#32 := by decide
/-- V-I6, V-I8. -/
theorem test_input_byte : (after (reading 0xB0000001#32 [0xFF] [(1, 0x12345678#32)])).reg 1 = 0xFF#32 := by decide
theorem test_input_end : (after (reading 0xB0000001#32 [] [(1, 0x12345678#32)])).reg 1 = 0xFFFFFFFF#32 := by decide

/-! ## The cycle, the loader, the host's side -/

/-- V-K8, V-R3, V-D7. -/
theorem test_empty_program_ends : after State.reset = State.reset.setRun .ended := by decide
theorem test_invalid_opcode :
    after (one 0xE0000000#32 []) = (one 0xE0000000#32 []).setRun (.faulted (.invalidOpcode 0xE0000000#32)) := by
  decide
/-- V-R1, V-R2, V-R4. -/
theorem test_boot : boot [0xD0, 0, 0, 0x48, 0xA0, 0, 0, 0] [0x61] =
    some (State.resetWith [0xD0000048#32, 0xA0000000#32] [0x61]) := by decide
theorem test_loader_byteOrder : loadBinary [0x48, 0, 0, 0xD0] = some [0x480000D0#32] := by decide
theorem test_loader_refuses : boot [0x70, 0, 0] [] = none := by decide
theorem test_fetchWord_runs : (after (State.reset.withFetchWord 32 0xD2000004)).reg 1 = 4#32 := by decide
theorem test_assembly :
    assemblyText (.segmentStore 2 0 3) = "SegmentStore r2, r0, r3" ∧ assemblyText .halt = "Halt" ∧
    assemblyText (.loadImmediate 1 4#32) = "LoadImmediate r1, 4" := by decide

/-! ## Witnesses: the codec and the encodings -/

theorem witness_fitsUnsigned_widths : (1 ≤ 1 ∧ 1 ≤ 63 ∧ (63 : Nat) ≤ 63) ∧
    fitsUnsigned (BitVec.ofNat 64 (2 ^ 63 - 1)) 63 (by decide) = true ∧
    fitsUnsigned (BitVec.ofNat 64 (2 ^ 63)) 63 (by decide) = false := by decide
theorem witness_getUnsigned_fields :
    64 + 0 ≤ 64 ∧ 1 + 63 ≤ 64 ∧ 0 + 64 ≤ 64 ∧ getUnsigned 0xABCD 0 64 (by decide) = 0#64 := by decide
theorem witness_putUnsigned_overflows : 2 ^ 25 ≤ (0x2000000 : Container).toNat ∧ 25 + 0 ≤ 64 := by decide
theorem witness_putUnsigned_fits : (0x1FFFFFF : Container).toNat < 2 ^ 25 ∧ 25 + 39 ≤ 64 := by decide
theorem witness_roundTrip : 1 ≤ 12 ∧ 12 + 52 ≤ 64 ∧ fitsUnsigned 0xFFF 12 (by decide) = true := by decide
theorem witness_signed_fits : fitsSigned (-128) 8 (by decide) = true ∧ fitsSigned 127 8 (by decide) = true ∧
    fitsSigned (-1) 1 (by decide) = true ∧ fitsSigned 0x8000000000000000 64 (by decide) = true := by decide
theorem witness_signed_overflows : fitsSigned 128 8 (by decide) = false ∧ fitsSigned (-129) 8 (by decide) = false ∧
    fitsSigned 1 1 (by decide) = false := by decide
theorem witness_decode_loadImmediate : (getUnsigned (zext64 0xD0000000#32) 4 28 (by decide)).toNat = 13 := by decide
theorem witness_decode_invalid : 14 ≤ (getUnsigned (zext64 0xE0000000#32) 4 28 (by decide)).toNat := by decide
theorem witness_decode_threeRegister : (getUnsigned (zext64 0xCFFFFFFF#32) 4 28 (by decide)).toNat ≤ 12 := by decide
theorem witness_ignoredBits : (0x30000053#32 : Word) ≠ 0x3FFFFE53#32 ∧
    ∀ k ∈ usedBits ((0x30000053#32 : Word).toNat / 2 ^ 28),
      (0x30000053#32 : Word).getLsbD k = (0x3FFFFE53#32 : Word).getLsbD k := by decide
theorem witness_onlyInvalid_running : (one 0xE0000000#32 []).run = .running ∧
    (one 0xE0000000#32 []).table.cell 0#32 (one 0xE0000000#32 []).pc = some 0xE0000000#32 := by decide
theorem witness_encoders_fit : (12 : Container).toNat ≤ 12 ∧ (7 : Container).toNat ≤ 7 ∧
    (0x1FFFFFF : Container).toNat < 2 ^ 25 := by decide
theorem witness_encoders_overflow : 16 ≤ (16 : Container).toNat ∧ 8 ≤ (8 : Container).toNat ∧
    2 ^ 25 ≤ (0x2000000 : Container).toNat := by decide
theorem witness_decodeInverts : decode 0x3FFFFE53#32 = .threeRegister 3 1 2 3 := by decide
theorem witness_everyInstruction : (Instr.loadImmediate 7 0x1FFFFFF#32).WellFormed ∧
    ¬(Instr.loadImmediate 7 0x2000000#32).WellFormed ∧
    decodeInstr 0xDFFFFFFF#32 = .ok (.loadImmediate 7 0x1FFFFFF#32) := by decide

/-! ## Witnesses: the instructions -/

theorem witness_conditionalMove_moves : (one 0#32 [(3, 1#32)]).reg 3 ≠ 0#32 := by decide
theorem witness_conditionalMove_keeps : (one 0#32 []).reg 3 = 0#32 := by decide
theorem witness_loadImmediate : 0x1FFFFFF < 2 ^ 25 := by decide
theorem witness_divide : (one 0#32 [(3, 0xFFFFFFFF#32)]).reg 3 ≠ 0#32 := by decide
theorem witness_divide_by_zero : (one 0#32 [(1, 7#32)]).reg 3 = 0#32 := by decide

/-- Registers 2 and 3 name the last cell of segment 1. -/
def lastCell : State := seg1 0x2000009C#32 [(2, 1#32), (3, 2#32), (4, 9#32)]

theorem witness_segmentLoad :
    (lastCell.table.len (loadAddress lastCell 2 3).1 = some 3) ∧ (loadAddress lastCell 2 3).2.toNat < 3 := by decide
theorem witness_segmentLoad_outOfBounds :
    PastTheEnd (seg1 0#32 [(2, 1#32), (3, 3#32)]) 1#32 3#32 ∧
    PastTheEnd (seg1 0#32 []) 1#32 0xFFFFFFFF#32 := ⟨⟨3, by decide, by decide⟩, ⟨3, by decide, by decide⟩⟩
theorem witness_segmentLoad_unmapped : Unmapped (seg1 0#32 [(2, 2#32)]) ((seg1 0#32 [(2, 2#32)]).reg 2) := by
  unfold Unmapped; decide
theorem witness_segmentStore :
    (lastCell.table.len (storeAddress lastCell 2 3).1 = some 3) ∧ (storeAddress lastCell 2 3).2.toNat < 3 := by decide
theorem witness_segmentStore_outOfBounds :
    PastTheEnd (seg1 0#32 [(2, 1#32), (3, 3#32)]) ((seg1 0#32 [(2, 1#32), (3, 3#32)]).reg 2)
      ((seg1 0#32 [(2, 1#32), (3, 3#32)]).reg 3) := ⟨3, by decide, by decide⟩
theorem witness_segmentStore_unmapped :
    Unmapped (seg1 0#32 [(2, 0xFFFFFFFF#32)]) ((seg1 0#32 [(2, 0xFFFFFFFF#32)]).reg 2) := by
  unfold Unmapped; decide
theorem witness_mapSegment_reuses : (onTable ⟨[(0#32, [])], [5#32], 2 ^ 32⟩ []).table.free = 5#32 :: [] := by decide
theorem witness_mapSegment_mints : (onTable ⟨[(0#32, [])], [], 2 ^ 32 - 1⟩ []).table.free = [] ∧
    (onTable ⟨[(0#32, [])], [], 2 ^ 32 - 1⟩ []).table.nextId < 2 ^ 32 := by decide
theorem witness_mapSegment_exhausted : (onTable ⟨[(0#32, [])], [], 2 ^ 32⟩ []).table.free = [] ∧
    (onTable ⟨[(0#32, [])], [], 2 ^ 32⟩ []).table.nextId = 2 ^ 32 := by decide
theorem witness_unmapSegment : (seg1 0#32 [(2, 1#32)]).reg 2 ≠ 0#32 ∧
    (seg1 0#32 [(2, 1#32)]).table.len ((seg1 0#32 [(2, 1#32)]).reg 2) = some 3 := by decide
theorem witness_unmapSegment_zero : (seg1 0#32 []).reg 2 = 0#32 := by decide
theorem witness_unmapSegment_unmapped : (seg1 0#32 [(2, 2#32)]).reg 2 ≠ 0#32 ∧
    Unmapped (seg1 0#32 [(2, 2#32)]) ((seg1 0#32 [(2, 2#32)]).reg 2) := ⟨by decide, by unfold Unmapped; decide⟩
theorem witness_loadProgram_jump : (seg1 0#32 []).reg 2 = 0#32 := by decide
theorem witness_loadProgram_copy : (seg1 0#32 [(2, 1#32)]).reg 2 ≠ 0#32 ∧
    (seg1 0#32 [(2, 1#32)]).table.len ((seg1 0#32 [(2, 1#32)]).reg 2) = some 3 := by decide
theorem witness_loadProgram_unmapped : (seg1 0#32 [(2, 2#32)]).reg 2 ≠ 0#32 ∧
    Unmapped (seg1 0#32 [(2, 2#32)]) ((seg1 0#32 [(2, 2#32)]).reg 2) := ⟨by decide, by unfold Unmapped; decide⟩
theorem witness_output_sentinel : (one 0#32 [(1, 0xFFFFFFFF#32)]).reg 1 = 0xFFFFFFFF#32 := by decide
theorem witness_output_byte : ((one 0#32 [(1, 255#32)]).reg 1).toNat ≤ 255 := by decide
theorem witness_output_range : 256 ≤ ((one 0#32 [(1, 256#32)]).reg 1).toNat ∧
    ((one 0#32 [(1, 0xFFFFFFFE#32)]).reg 1).toNat ≤ 0xFFFFFFFE ∧
    256 ≤ ((one 0#32 [(1, 0xFFFFFFFE#32)]).reg 1).toNat := by decide
theorem witness_input_byte : (reading 0#32 [0xFF] []).input[(reading 0#32 [0xFF] []).inPos]? = some 0xFF := by decide
theorem witness_input_end : (reading 0#32 [] []).input.length ≤ (reading 0#32 [] []).inPos := by decide

/-! ## Witnesses: the family statements -/

theorem witness_registerTable_frame :
    exec (.add 1 2 3) (one 0#32 []) = .next (nextOf (exec (.add 1 2 3) (one 0#32 []))) ∧
    (2 : Reg) ∉ writesOf (one 0#32 []) (.add 1 2 3) := ⟨exec_nextOf _ _, by decide⟩
theorem witness_registerTable_influence : (1 : Reg) ∉ readsOf (one 0#32 []) (.add 1 2 3) ∧
    (one 0#32 []).run = .running ∧ (1 : Reg) ∈ writesOf (one 0#32 []) (.add 1 2 3) ∧
    (nextOf (exec (.add 1 2 3) (one 0#32 []))).run = .running := by decide
/-- ConditionalMove that does not move neither reads `b` nor writes `a`. -/
theorem witness_registerTable_notWritten : (2 : Reg) ∉ readsOf (one 0#32 []) (.conditionalMove 1 2 3) ∧
    (1 : Reg) ∉ writesOf (one 0#32 []) (.conditionalMove 1 2 3) := by decide
theorem witness_pcRule : (one 0#32 []).run = .running ∧
    (nextOf (exec (.divide 1 2 3) (one 0#32 []))).run = .faulted .divideByZero ∧
    (nextOf (exec (.loadProgram 2 3) (one 0#32 []))).run = .running ∧
    (nextOf (exec (.add 1 2 3) (one 0#32 []))).run = .running := by decide
theorem witness_alu_quotient : aluDiv 0xFFFFFFFF#32 2#32 = some 0x7FFFFFFF#32 ∧ aluDiv 7#32 0#32 = none := by decide
theorem witness_idioms : (one 0#32 []).reg 0 = 0#32 ∧ (6 : Reg) ≠ 0 := by decide

/-! ## Witnesses: several instructions -/

/-- A store, and the state after it. -/
def stored : State := nextOf (exec (.segmentStore 2 3 4) lastCell)

theorem witness_loadAfterStore : lastCell.run = .running ∧
    exec (.segmentStore 2 3 4) lastCell = .next stored ∧
    stored.run = .running ∧ loadAddress stored 2 3 =
      storeAddress lastCell 2 3 :=
  ⟨by decide, exec_nextOf _ _, by decide, by decide⟩

/-- A two-word program that stores the word of Halt over its own second word. -/
def selfModifying : State :=
  withRegs [(1, 1#32), (2, 0x70000000#32)] (State.resetWith [0x2000000A#32, 0#32] [])

theorem witness_nextFetch_store : selfModifying.run = .running ∧
    exec (.segmentStore 0 1 2) selfModifying = .next (nextOf (exec (.segmentStore 0 1 2) selfModifying)) ∧
    (nextOf (exec (.segmentStore 0 1 2) selfModifying)).run = .running ∧ selfModifying.reg 0 = 0#32 ∧
    selfModifying.reg 1 = (nextOf (exec (.segmentStore 0 1 2) selfModifying)).pc ∧
    decodeInstr (selfModifying.reg 2) = .ok .halt :=
  ⟨by decide, exec_nextOf _ _, by decide, by decide, by decide, by decide⟩

/-- V-K5: segment 1 is a program of two words. -/
def copying : State :=
  onTable ⟨[(0#32, [0xC0000013#32]), (1#32, [0x70000000#32, 0xA0000001#32])], [], 2⟩ [(2, 1#32), (3, 1#32)]

/-- The state after the copy. -/
def copied : State := nextOf (exec (.loadProgram 2 3) copying)

theorem witness_nextFetch_copy : copying.run = .running ∧ exec (.loadProgram 2 3) copying = .next copied ∧
    copied.run = .running ∧ copying.reg 2 ≠ 0#32 ∧
    copying.table.cell (copying.reg 2) (copying.reg 3) = some 0xA0000001#32 ∧
    decodeInstr 0xA0000001#32 = .ok (.output 1) :=
  ⟨by decide, exec_nextOf _ _, by decide, by decide, by decide, by decide⟩
theorem witness_copy_store_source :
    exec (.segmentStore 2 0 3) copied = .next (nextOf (exec (.segmentStore 2 0 3) copied)) ∧
    copied.reg 2 = copying.reg 2 := ⟨exec_nextOf _ _, by decide⟩
theorem witness_copy_store_program :
    exec (.segmentStore 0 0 3) copied = .next (nextOf (exec (.segmentStore 0 0 3) copied)) ∧
    copied.reg 0 = 0#32 := ⟨exec_nextOf _ _, by decide⟩

/-- E5. -/
theorem witness_freedIds :
    SegTable.segFree ⟨[(0#32, []), (1#32, []), (2#32, [])], [], 3⟩ 1#32 = .ok ⟨[(0#32, []), (2#32, [])], [1#32], 3⟩ ∧
    SegTable.segFree ⟨[(0#32, []), (2#32, [])], [1#32], 3⟩ 2#32 = .ok ⟨[(0#32, [])], [2#32, 1#32], 3⟩ := by decide

/-- Id 1 unmapped, its dangling copies in registers 2 and 4. -/
def dangling : State := nextOf (exec (.unmapSegment 2) (seg1 0x90000002#32 [(2, 1#32), (4, 1#32)]))

theorem witness_dangling : (seg1 0x90000002#32 [(2, 1#32), (4, 1#32)]).run = .running ∧
    exec (.unmapSegment 2) (seg1 0x90000002#32 [(2, 1#32), (4, 1#32)]) = .next dangling ∧ dangling.run = .running ∧
    dangling.reg 4 = (seg1 0x90000002#32 [(2, 1#32), (4, 1#32)]).reg 2 :=
  ⟨by decide, exec_nextOf _ _, by decide, by decide⟩

/-! ## Witnesses: states that meet the invariants -/

/-- A lookup in `seg1Table`. -/
theorem seg1Table_segment (prog : List Word) (id : Word) : (seg1Table prog).segment id =
    if id = 0#32 then some prog else if id = 1#32 then some [0xAA#32, 0xBB#32, 0xCC#32] else none := by
  simp only [seg1Table, SegTable.segment, Memory.find]
  by_cases h0 : id = 0#32
  · simp [h0]
  · by_cases h1 : id = 1#32
    · simp [h1]
    · simp [h0, h1, Ne.symm h0, Ne.symm h1]

/-- A state over `seg1Table`, not halted and with no byte consumed, meets the invariants. -/
theorem seg1_inv {s : State} (prog : List Word) (ht : s.table = seg1Table prog) (hp : prog.length < 2 ^ 32)
    (hi : s.inPos = 0) : s.Inv := by
  have hs := seg1Table_segment prog
  constructor <;> (try simp only [ht])
  · simp [seg1Table, Memory.wf]
  · intro id words h
    rw [hs] at h
    split at h
    · cases h; exact hp
    · split at h <;> cases h
      decide
  · intro id h; cases h
  · intro h; cases h
  · intro id h; cases h
  · exact List.nodup_nil
  · intro id h
    have h2 : 2 ≤ id.toNat := h
    rw [hs, if_neg (by rintro rfl; simp at h2), if_neg (by rintro rfl; simp at h2)]
  · intro _ id h
    left
    have h2 : id.toNat < 2 := h
    have : id = 0#32 ∨ id = 1#32 := by
      rcases (show id.toNat = 0 ∨ id.toNat = 1 by omega) with e | e
      · exact .inl (BitVec.eq_of_toNat_eq e)
      · exact .inr (BitVec.eq_of_toNat_eq e)
    rcases this with rfl | rfl <;> rw [hs] <;> rfl
  · intro _; rw [hs]; rfl
  · simp [seg1Table]
  · omega

theorem onTable_table (t : SegTable) (l : List (Reg × Word)) : (onTable t l).table = t ∧ (onTable t l).inPos = 0 := by
  have : ∀ (l : List (Reg × Word)) (s : State), (withRegs l s).table = s.table ∧ (withRegs l s).inPos = s.inPos := by
    intro l
    induction l with
    | nil => intro s; exact ⟨rfl, rfl⟩
    | cons p l ih => intro s; exact ih (s.setReg p.1 p.2)
  exact this l _

/-- `seg1` states meet the invariants, whatever the program word and the registers. -/
theorem witness_inv (w : Word) (l : List (Reg × Word)) : (seg1 w l).Inv :=
  seg1_inv [w] (onTable_table _ l).1 (by simp) (onTable_table _ l).2

theorem witness_mapSegment_inv : (seg1 0x80000011#32 []).Inv ∧ (seg1 0x80000011#32 []).run = .running ∧
    exec (.mapSegment 2 1) (seg1 0x80000011#32 []) = .next (nextOf (exec (.mapSegment 2 1) (seg1 0x80000011#32 []))) ∧
    (nextOf (exec (.mapSegment 2 1) (seg1 0x80000011#32 []))).run = .running :=
  ⟨witness_inv _ _, by decide, exec_nextOf _ _, by decide⟩

/-! ## Witnesses: the step -/

theorem witness_step : (seg1 0x80000011#32 []).run = .running ∧
    (seg1 0x80000011#32 []).table.cell 0#32 (seg1 0x80000011#32 []).pc = some 0x80000011#32 ∧
    decodeInstr 0x80000011#32 = .ok (.mapSegment 2 1) := by decide
/-- `pc` equal to the length, and far beyond it (V-K4). -/
theorem witness_endOfProgram : ((one 0#32 []).setPc 1#32).run = .running ∧
    ((one 0#32 []).setPc 1#32).table.len 0#32 = some 1 ∧ 1 ≤ ((one 0#32 []).setPc 1#32).pc.toNat ∧
    1 ≤ ((one 0#32 []).setPc 0xFFFFFFFF#32).pc.toNat := by decide
theorem witness_invalidOpcode : (one 0xE0000000#32 []).run = .running ∧
    (one 0xE0000000#32 []).table.cell 0#32 (one 0xE0000000#32 []).pc = some 0xE0000000#32 ∧
    14 ≤ (0xE0000000#32 : Word).toNat / 2 ^ 28 := by decide

/-- The conditions of the faults, one for each kind and each clause. -/
theorem witness_fault_invalidOpcode : CycleFaults (seg1 0xFFFFFFFF#32 []) (.invalidOpcode 0xFFFFFFFF#32) := by
  constructor <;> decide
theorem witness_fault_unmapped_load : CycleFaults (seg1 0x10000113#32 [(2, 2#32)]) (.unmappedAccess 2#32) :=
  ⟨by unfold Unmapped; decide, .inl ⟨4, 2, 3, ⟨0x10000113#32, by decide, by decide⟩, by decide⟩⟩
theorem witness_fault_unmapped_store : CycleFaults (seg1 0x2000009C#32 [(2, 2#32)]) (.unmappedAccess 2#32) :=
  ⟨by unfold Unmapped; decide, .inr (.inl ⟨2, 3, 4, ⟨0x2000009C#32, by decide, by decide⟩, by decide⟩)⟩
theorem witness_fault_unmapped_unmap : CycleFaults (seg1 0x90000002#32 [(2, 7#32)]) (.unmappedAccess 7#32) :=
  ⟨by unfold Unmapped; decide, .inr (.inr (.inl ⟨2, ⟨0x90000002#32, by decide, by decide⟩, by decide, by decide⟩))⟩
theorem witness_fault_unmapped_program : CycleFaults (seg1 0xC0000013#32 [(2, 4#32)]) (.unmappedAccess 4#32) :=
  ⟨by unfold Unmapped; decide, .inr (.inr (.inr ⟨2, 3, ⟨0xC0000013#32, by decide, by decide⟩, by decide, by decide⟩))⟩
theorem witness_fault_bounds_load :
    CycleFaults (seg1 0x10000113#32 [(2, 1#32), (3, 3#32)]) (.outOfBounds 1#32 3#32) :=
  ⟨⟨3, by decide, by decide⟩, .inl ⟨4, 2, 3, ⟨0x10000113#32, by decide, by decide⟩, by decide, by decide⟩⟩
theorem witness_fault_bounds_store :
    CycleFaults (seg1 0x2000009C#32 [(2, 1#32), (3, 3#32)]) (.outOfBounds 1#32 3#32) :=
  ⟨⟨3, by decide, by decide⟩, .inr ⟨2, 3, 4, ⟨0x2000009C#32, by decide, by decide⟩, by decide, by decide⟩⟩
theorem witness_fault_divide : CycleFaults (seg1 0x5000008B#32 []) .divideByZero :=
  ⟨2, 1, 3, ⟨0x5000008B#32, by decide, by decide⟩, by decide⟩
theorem witness_fault_output : CycleFaults (seg1 0xA0000001#32 [(1, 256#32)]) (.outputRange 256#32) ∧
    CycleFaults (seg1 0xA0000001#32 [(1, 0xFFFFFFFE#32)]) (.outputRange 0xFFFFFFFE#32) :=
  ⟨⟨by decide, 1, ⟨0xA0000001#32, by decide, by decide⟩, by decide⟩,
    ⟨by decide, 1, ⟨0xA0000001#32, by decide, by decide⟩, by decide⟩⟩
theorem witness_fault_unmapZero : CycleFaults (seg1 0x90000002#32 []) .unmapSegmentZero :=
  ⟨2, ⟨0x90000002#32, by decide, by decide⟩, by decide⟩

theorem witness_faultingCycle : (seg1 0x5000008B#32 []).run = .running ∧
    step (seg1 0x5000008B#32 []) = .next (after (seg1 0x5000008B#32 [])) ∧
    (after (seg1 0x5000008B#32 [])).run = .faulted .divideByZero := ⟨by decide, by rfl, by decide⟩

/-- A Halt, a run past the end, a fault, and a cycle after which the run goes on, each from a state of the
invariants. -/
theorem witness_threeWays : (seg1 0x70000000#32 []).Inv ∧ (seg1 0x70000000#32 []).run = .running ∧
    step (seg1 0x70000000#32 []) = .next (after (seg1 0x70000000#32 [])) ∧
    (after (seg1 0x70000000#32 [])).run = .halted := ⟨witness_inv _ _, by decide, by rfl, by decide⟩
theorem witness_threeWays_end : ((seg1 0#32 []).setPc 1#32).Inv ∧
    step ((seg1 0#32 []).setPc 1#32) = .next (after ((seg1 0#32 []).setPc 1#32)) ∧
    (after ((seg1 0#32 []).setPc 1#32)).run = .ended :=
  ⟨seg1_inv [0#32] rfl (by decide) rfl, by rfl, by decide⟩
theorem witness_threeWays_on : step (seg1 0#32 []) = .next (after (seg1 0#32 [])) ∧
    (after (seg1 0#32 [])).run = .running := ⟨by rfl, by decide⟩

theorem witness_terminal : ((one 0#32 []).setRun .halted).run.terminal = true ∧
    ((one 0#32 []).setRun .ended).run.terminal = true ∧
    ((one 0#32 []).setRun (.faulted .divideByZero)).run.terminal = true := by decide
theorem witness_exitStatus : ((one 0#32 []).setRun (.faulted .divideByZero)).run = .faulted .divideByZero := by decide
theorem witness_pcNeverWraps : (seg1 0#32 []).Inv ∧
    (seg1 0#32 []).table.cell 0#32 (seg1 0#32 []).pc = some 0#32 := ⟨witness_inv _ _, by decide⟩
theorem witness_streams : (reading 0xB0000001#32 [0xFF] []).run = .running ∧
    step (reading 0xB0000001#32 [0xFF] []) = .next (after (reading 0xB0000001#32 [0xFF] [])) ∧
    (after (reading 0xB0000001#32 [0xFF] [])).inPos ≠ (reading 0xB0000001#32 [0xFF] []).inPos :=
  ⟨by decide, by rfl, by decide⟩
theorem witness_runsFor : runsFor 1 (one 0xA0000001#32 []) (after (one 0xA0000001#32 [])) ∧
    (after (one 0xA0000001#32 [])).out = [0x00] := ⟨by rfl, by decide⟩
/-- A LoadProgram that gives segment 0 another length (V-K5). -/
theorem witness_segmentLength : (seg1 0xC0000010#32 [(2, 1#32)]).Inv ∧
    step (seg1 0xC0000010#32 [(2, 1#32)]) = .next (after (seg1 0xC0000010#32 [(2, 1#32)])) ∧
    (seg1 0xC0000010#32 [(2, 1#32)]).table.len 0#32 = some 1 ∧
    (after (seg1 0xC0000010#32 [(2, 1#32)])).table.len 0#32 = some 3 :=
  ⟨witness_inv _ _, by rfl, by decide, by decide⟩
/-- V-S11. -/
theorem witness_programChanges : (seg1 0x20000001#32 [(1, 0x70000000#32)]).Inv ∧
    (seg1 0x20000001#32 [(1, 0x70000000#32)]).run = .running ∧
    step (seg1 0x20000001#32 [(1, 0x70000000#32)]) = .next (after (seg1 0x20000001#32 [(1, 0x70000000#32)])) ∧
    (after (seg1 0x20000001#32 [(1, 0x70000000#32)])).table.cell 0#32 0#32 ≠
      (seg1 0x20000001#32 [(1, 0x70000000#32)]).table.cell 0#32 0#32 :=
  ⟨witness_inv _ _, by decide, by rfl, by decide⟩
/-- V-K3. -/
theorem witness_selfJump : (one 0xC0000000#32 []).run = .running ∧
    Fetches (one 0xC0000000#32 []) (.loadProgram 0 0) ∧ (one 0xC0000000#32 []).reg 0 = 0#32 ∧
    (one 0xC0000000#32 []).reg 0 = (one 0xC0000000#32 []).pc :=
  ⟨by decide, ⟨0xC0000000#32, by decide, by decide⟩, by decide, by decide⟩

/-! ## Witnesses: reset, the invariants, placing a word -/

theorem witness_boot :
    (one 0#32 []).hostReset [0x70, 0, 0, 0] [0x61] = some (State.resetWith [0x70000000#32] [0x61]) ∧
    (one 0#32 []).hostReset [0x70, 0, 0] [] = none := by decide
theorem witness_boot_bytes : ([0x70, 1, 2, 3] : List Byte)[4 * 0]? = some 0x70 ∧
    ([0x70, 1, 2, 3] : List Byte)[4 * 0 + 1]? = some 1 ∧ ([0x70, 1, 2, 3] : List Byte)[4 * 0 + 2]? = some 2 ∧
    ([0x70, 1, 2, 3] : List Byte)[4 * 0 + 3]? = some 3 := by decide
theorem witness_reset_program : ([0x70000000#32] : List Word).length < 2 ^ 32 := by decide
theorem witness_neverStops : boot [0x70, 0, 0, 0] [] = some (State.resetWith [0x70000000#32] []) ∧
    runsFor 1 (State.resetWith [0x70000000#32] []) (after (State.resetWith [0x70000000#32] [])) :=
  ⟨by decide, by rfl⟩
theorem witness_placedWord : decodeInstr 0xD2000004#32 = .ok (.loadImmediate 1 4#32) := by decide

/-! ## A state of the invariants in which every id is mapped: SegmentIdExhausted can be raised -/

/-- `n` mapped ids, segment 0 the one word of `MapSegment r2, r1`. -/
def fullMemory (n : Nat) : Memory :=
  (List.range n).map fun k => (BitVec.ofNat 32 k, if k = 0 then [0x80000011#32] else [])

theorem fullMemory_wf {n : Nat} (hn : n ≤ 2 ^ 32) : Memory.wf (fullMemory n) := by
  unfold Memory.wf fullMemory
  rw [List.pairwise_map]
  refine List.Pairwise.imp_of_mem (fun {a b} ha hb h => ?_) List.pairwise_lt_range
  have := List.mem_range.1 ha
  have := List.mem_range.1 hb
  simp only [BitVec.toNat_ofNat]
  omega

theorem find_of_mem {id : Word} {words : Segment} :
    ∀ {m : Memory}, Memory.wf m → (id, words) ∈ m → Memory.find m id = some words
  | [], _, h => by cases h
  | (k, seg) :: rest, hw, h => by
    unfold Memory.find
    rcases List.mem_cons.1 h with e | e
    · cases e; rw [if_pos rfl]
    · have hlt := (List.pairwise_cons.1 hw).1 _ e
      rw [if_neg (by rintro rfl; simp at hlt)]
      exact find_of_mem (List.pairwise_cons.1 hw).2 e

theorem fullMemory_find {n : Nat} (hn : n ≤ 2 ^ 32) (id : Word) (h : id.toNat < n) :
    Memory.find (fullMemory n) id = some (if id.toNat = 0 then [0x80000011#32] else []) := by
  apply find_of_mem (fullMemory_wf hn)
  unfold fullMemory
  exact List.mem_map.2 ⟨id.toNat, List.mem_range.2 h, by simp⟩

/-- Every id mapped, none free, none left to issue. -/
def fullState (n : Nat) : State := State.reset.setTable ⟨fullMemory n, [], n⟩

theorem fullState_segment {n : Nat} (hn : n = 2 ^ 32) (id : Word) : (fullState n).table.segment id =
    some (if id.toNat = 0 then [0x80000011#32] else []) :=
  fullMemory_find (by omega) id (by have := id.isLt; omega)

theorem fullState_inv {n : Nat} (hn : n = 2 ^ 32) : (fullState n).Inv := by
  have hs := fullState_segment hn
  have hlt : ∀ id : Word, id.toNat < n := fun id => by have := id.isLt; omega
  refine ⟨fullMemory_wf (by omega), ?_, nofun, nofun, nofun, List.nodup_nil, ?_, ?_, ?_, ?_, Nat.le_refl 0⟩
  · intro id words h
    rw [hs] at h
    cases h
    split <;> decide
  · intro id h
    have h2 : n ≤ id.toNat := h
    have := hlt id
    omega
  · intro _ id _; left; rw [hs]; rfl
  · intro _; rw [hs]; rfl
  · exact ⟨show 1 ≤ n by omega, show n ≤ 2 ^ 32 by omega⟩

theorem witness_fault_exhausted :
    (fullState (2 ^ 32)).Inv ∧ (fullState (2 ^ 32)).run = .running ∧
    CycleFaults (fullState (2 ^ 32)) .segmentIdExhausted := by
  refine ⟨fullState_inv rfl, rfl, ⟨rfl, rfl⟩, 2, 1, 0x80000011#32, ?_, by decide⟩
  rw [SegTable.cell_of_segment (fullState_segment rfl 0#32)]
  rfl

end Sys2Proof.Tests
end

section
/-! PROOFS. The family of 10_state.md: the invariants, and what an instruction does to each component of the
state. `ExecEffect` lists once the shapes a completed instruction can have; the facts about registers, `pc`, streams
and segment table are read off it. -/

namespace Sys2Proof.Machine

open Sys2Proof.Claims

/-! ## The shapes of an instruction's effect -/

/-- The instructions that go on at `pc + 1` when they do not fault (R24). -/
def IsSequential (i : Instr) : Prop := i ≠ .halt ∧ ∀ b c, i ≠ .loadProgram b c

/-- The pool and the count of issued ids of `t'` are those of `t` once `id` is taken: the id freed last, else a
fresh one (R53). -/
def SegTable.Allocates (t : SegTable) (id : Word) (t' : SegTable) : Prop :=
  (t.free = id :: t'.free ∧ t'.nextId = t.nextId) ∨
  (t.free = [] ∧ t'.free = [] ∧ t.nextId < 2 ^ 32 ∧ id = BitVec.ofNat 32 t.nextId ∧ t'.nextId = t.nextId + 1)

/-- The shapes of the next state an instruction can answer: which component it changes, and to what. -/
inductive ExecEffect (s : State) : Instr → State → Prop where
  /-- A fault: the run state alone changes (R241). -/
  | faulted {i : Instr} (f : FatalFault) : ExecEffect s i (s.setRun (.faulted f))
  /-- One register is written and nothing else happens. -/
  | wrote {i : Instr} {a : Reg} (v : Word) (hw : writesOf s i = [a]) (hi : IsSequential i) :
      ExecEffect s i (s.setReg a v).advance
  /-- Nothing happens but the step of `pc`. -/
  | skipped {i : Instr} (hi : IsSequential i) : ExecEffect s i s.advance
  /-- A cell of a mapped segment is written (R56). -/
  | stored (a b c : Reg) {words : Segment} (hw : s.table.segment (s.reg a) = some words)
      (hlt : (s.reg b).toNat < words.length) :
      ExecEffect s (.segmentStore a b c) (s.setTable { s.table with
        seg := Memory.insert s.table.seg (s.reg a) (words.set (s.reg b).toNat (s.reg c)) }).advance
  /-- A zeroed segment is mapped (R53). -/
  | mapped (b c : Reg) {id : Word} {tbl : SegTable}
      (hseg : tbl.seg = Memory.insert s.table.seg id (List.replicate (s.reg c).toNat 0#32))
      (hid : SegTable.Allocates s.table id tbl) :
      ExecEffect s (.mapSegment b c) ((s.setTable tbl).setReg b id).advance
  /-- A mapped id other than 0 is freed (R54). -/
  | unmapped (c : Reg) (h0 : s.reg c ≠ 0#32) (hm : (s.table.segment (s.reg c)).isSome) :
      ExecEffect s (.unmapSegment c) (s.setTable { s.table with
        seg := Memory.erase s.table.seg (s.reg c), free := s.reg c :: s.table.free }).advance
  /-- A jump inside the program (R202). -/
  | jumped (b c : Reg) : ExecEffect s (.loadProgram b c) (s.setPc (s.reg c))
  /-- Segment 0 becomes a copy of another segment, and a jump (R57). -/
  | copied (b c : Reg) {words : Segment} (h0 : s.reg b ≠ 0#32)
      (hw : s.table.segment (s.reg b) = some words) :
      ExecEffect s (.loadProgram b c)
        ((s.setTable { s.table with seg := Memory.insert s.table.seg 0#32 words }).setPc (s.reg c))
  /-- One byte is written to the output (R220). -/
  | emitted (c : Reg) (hv : (s.reg c).toNat ≤ 255) :
      ExecEffect s (.output c) (s.outByte ((s.reg c).setWidth 8)).advance
  /-- One byte of the input is consumed (R221). -/
  | consumed (c : Reg) {byte : Byte} (hb : s.input[s.inPos]? = some byte) :
      ExecEffect s (.input c) (State.setReg { s with inPos := s.inPos + 1 } c (byte.setWidth 32)).advance
  /-- Every segment is released (R58, R200). -/
  | halted : ExecEffect s .halt ((s.setTable s.table.segReleaseAll).setRun .halted)

variable {s t : State} {i : Instr}

/-- Whatever an instruction answers has one of the shapes. -/
theorem exec_effect (h : exec i s = .next t) : ExecEffect s i t := by
  cases i with
  | conditionalMove a b c =>
    rcases execConditionalMove_cases h with ⟨hc, rfl⟩ | ⟨-, rfl⟩
    · exact .wrote _ (if_neg hc) ⟨nofun, nofun⟩
    · exact .skipped ⟨nofun, nofun⟩
  | segmentLoad a b c =>
    rcases execSegmentLoad_cases h with ⟨v, -, rfl⟩ | ⟨-, rfl⟩ | ⟨-, -, -, rfl⟩
    · exact .wrote v rfl ⟨nofun, nofun⟩
    · exact .faulted _
    · exact .faulted _
  | segmentStore a b c =>
    rcases execSegmentStore_cases h with ⟨words, hw, hlt, rfl⟩ | ⟨-, rfl⟩ | ⟨-, -, -, rfl⟩
    · exact .stored a b c hw hlt
    · exact .faulted _
    · exact .faulted _
  | add a b c => cases h; exact .wrote _ rfl ⟨nofun, nofun⟩
  | multiply a b c => cases h; exact .wrote _ rfl ⟨nofun, nofun⟩
  | divide a b c =>
    rcases execDivide_cases h with ⟨-, rfl⟩ | ⟨-, rfl⟩
    · exact .wrote _ rfl ⟨nofun, nofun⟩
    · exact .faulted _
  | nand a b c => cases h; exact .wrote _ rfl ⟨nofun, nofun⟩
  | halt => cases h; exact .halted
  | mapSegment b c =>
    rcases execMapSegment_cases h with ⟨id, tbl, hseg, hid, rfl⟩ | ⟨-, -, rfl⟩
    · exact .mapped b c hseg hid
    · exact .faulted _
  | unmapSegment c =>
    rcases execUnmapSegment_cases h with ⟨h0, hm, rfl⟩ | ⟨-, rfl⟩ | ⟨-, -, rfl⟩
    · exact .unmapped c h0 hm
    · exact .faulted _
    · exact .faulted _
  | output c =>
    rcases execOutput_cases h with ⟨-, rfl⟩ | ⟨hv, rfl⟩ | ⟨-, -, rfl⟩
    · exact .skipped ⟨nofun, nofun⟩
    · exact .emitted c hv
    · exact .faulted _
  | input c =>
    rcases execInput_cases h with ⟨byte, hb, rfl⟩ | ⟨-, rfl⟩
    · exact .consumed c hb
    · exact .wrote _ rfl ⟨nofun, nofun⟩
  | loadProgram b c =>
    rcases execLoadProgram_cases h with ⟨-, rfl⟩ | ⟨h0, words, hw, rfl⟩ | ⟨-, -, rfl⟩
    · exact .jumped b c
    · exact .copied b c h0 hw
    · exact .faulted _
  | loadImmediate dest value => cases h; exact .wrote _ rfl ⟨nofun, nofun⟩

/-- A completed step from `Running` ends the run on the spot or is the effect of the instruction at `(0, pc)`. -/
theorem step_running_effect (hr : s.run = .running) (h : step s = .next t) :
    (∃ r, r ≠ .running ∧ r ≠ .halted ∧ t = s.setRun r) ∨ ∃ i, Fetches s i ∧ ExecEffect s i t := by
  rcases step_running_cases hr with ⟨-, hs⟩ | ⟨-, hs⟩ | ⟨w, e, -, -, hs⟩ | ⟨w, i, hc, hd, hs⟩ <;>
    rw [hs] at h
  · cases h
  · cases h; exact .inl ⟨.ended, nofun, nofun, rfl⟩
  · cases h; exact .inl ⟨.faulted (.invalidOpcode w), nofun, nofun, rfl⟩
  · exact .inr ⟨i, ⟨w, hc, hd⟩, exec_effect h⟩

/-- With segment 0 mapped, a step answers a next state (R133). -/
theorem step_answers_next (hr : s.run = .running) (hm : (s.table.segment 0#32).isSome) :
    ∃ t, step s = .next t := by
  rcases step_running_cases hr with ⟨hn, -⟩ | ⟨-, hs⟩ | ⟨w, e, -, -, hs⟩ | ⟨w, i, -, -, hs⟩
  · simp [hn] at hm
  · exact ⟨_, hs⟩
  · exact ⟨_, hs⟩
  · rw [hs]; exact exec_answers_next i s

/-! ## The segment table's invariants -/

/-- The clauses of `State.Inv` on the table alone that hold in every run state. -/
structure SegTable.Sound (t : SegTable) : Prop where
  canonical : Memory.wf t.seg
  lengths : ∀ id words, t.segment id = some words → words.length < 2 ^ 32
  freeUnmapped : ∀ id ∈ t.free, t.segment id = none
  freeNonzero : 0#32 ∉ t.free
  freeIssued : ∀ id ∈ t.free, id.toNat < t.nextId
  freeOnce : t.free.Nodup
  freshUnmapped : ∀ id : Word, t.nextId ≤ id.toNat → t.segment id = none
  nextIdRange : 1 ≤ t.nextId ∧ t.nextId ≤ 2 ^ 32

/-- The clauses that a run keeps until Halt releases every segment. -/
structure SegTable.Live (t : SegTable) : Prop extends SegTable.Sound t where
  issuedAccounted : ∀ id : Word, id.toNat < t.nextId → (t.segment id).isSome ∨ id ∈ t.free
  programMapped : (t.segment 0#32).isSome

/-- The invariants of a state from those of its table. -/
theorem State.Inv.of_live (h : s.table.Live) (hp : s.inPos ≤ s.input.length) : s.Inv :=
  { h with
    issuedAccounted := fun _ => h.issuedAccounted
    programMapped := fun _ => h.programMapped
    consumedRange := hp }

/-- After Halt the sound table is enough (assumption log 17). -/
theorem State.Inv.of_halted (h : s.table.Sound) (hr : s.run = .halted) (hp : s.inPos ≤ s.input.length) : s.Inv :=
  { h with
    issuedAccounted := fun hn => absurd hr hn
    programMapped := fun he => by simp [hr] at he
    consumedRange := hp }

/-- A `Running` state of the invariants has a live table. -/
theorem State.Inv.live (h : s.Inv) (hr : s.run = .running) : s.table.Live :=
  { h with
    issuedAccounted := h.issuedAccounted (by simp [hr])
    programMapped := h.programMapped hr }

section
variable {tbl tbl' : SegTable} {id : Word} {words : Segment}

/-- A lookup in a table whose map is another's with one segment put in. -/
theorem SegTable.segment_of_insert (hseg : tbl'.seg = Memory.insert tbl.seg id words) (k : Word) :
    tbl'.segment k = if k = id then some words else tbl.segment k := by
  rw [SegTable.segment, hseg, Memory.find_insert]; rfl

/-- Putting in a segment of a legal length keeps all lengths legal. -/
theorem SegTable.Sound.lengths_insert (h : tbl.Sound) (hseg : tbl'.seg = Memory.insert tbl.seg id words)
    (hl : words.length < 2 ^ 32) (k : Word) (ws : Segment) (hk : tbl'.segment k = some ws) :
    ws.length < 2 ^ 32 := by
  rw [SegTable.segment_of_insert hseg] at hk
  split at hk
  · cases hk; exact hl
  · exact h.lengths k ws hk

/-- An id that was mapped stays mapped when a segment is put in. -/
theorem SegTable.isSome_insert (hseg : tbl'.seg = Memory.insert tbl.seg id words) {k : Word}
    (hk : (tbl.segment k).isSome) : (tbl'.segment k).isSome := by
  rw [SegTable.segment_of_insert hseg]
  split
  · rfl
  · exact hk

/-- An unmapped id other than the one put in stays unmapped. -/
theorem SegTable.unmapped_insert (hseg : tbl'.seg = Memory.insert tbl.seg id words) {k : Word}
    (hne : k ≠ id) (hk : tbl.segment k = none) : tbl'.segment k = none := by
  rw [SegTable.segment_of_insert hseg, if_neg hne, hk]

/-- The id `MapSegment` takes is unmapped, whether it comes from the pool or is fresh (R32). -/
theorem SegTable.Sound.allocated_unmapped (h : tbl.Sound) (hid : tbl.Allocates id tbl') :
    tbl.segment id = none := by
  rcases hid with ⟨hf, -⟩ | ⟨-, -, hn, rfl, -⟩
  · exact h.freeUnmapped id (hf ▸ List.mem_cons_self)
  · exact h.freshUnmapped _ (by rw [BitVec.toNat_ofNat, Nat.mod_eq_of_lt hn])

/-- Replacing the words of a mapped id keeps a live table. -/
theorem SegTable.Live.replace (h : tbl.Live) (hm : (tbl.segment id).isSome) (hl : words.length < 2 ^ 32) :
    SegTable.Live { tbl with seg := Memory.insert tbl.seg id words } := by
  have hne : ∀ k, tbl.segment k = none → k ≠ id := by rintro k hk rfl; simp [hk] at hm
  exact
  { canonical := Memory.wf_insert _ _ h.canonical
    lengths := h.lengths_insert rfl hl
    freeUnmapped := fun k hk =>
      SegTable.unmapped_insert rfl (hne k (h.freeUnmapped k hk)) (h.freeUnmapped k hk)
    freeNonzero := h.freeNonzero
    freeIssued := h.freeIssued
    freeOnce := h.freeOnce
    freshUnmapped := fun k hk =>
      SegTable.unmapped_insert rfl (hne k (h.freshUnmapped k hk)) (h.freshUnmapped k hk)
    nextIdRange := h.nextIdRange
    issuedAccounted := fun k hk => (h.issuedAccounted k hk).imp_left (SegTable.isSome_insert rfl)
    programMapped := SegTable.isSome_insert rfl h.programMapped }

/-- Mapping the id freed last keeps a live table (R53). -/
theorem SegTable.Live.reuse (h : tbl.Live) (hseg : tbl'.seg = Memory.insert tbl.seg id words)
    (hf : tbl.free = id :: tbl'.free) (hn : tbl'.nextId = tbl.nextId) (hl : words.length < 2 ^ 32) :
    tbl'.Live := by
  have hpool : ∀ k ∈ tbl'.free, k ∈ tbl.free := fun k hk => hf ▸ List.mem_cons_of_mem _ hk
  have honce : id ∉ tbl'.free ∧ tbl'.free.Nodup := List.nodup_cons.1 (hf ▸ h.freeOnce)
  have hissued : id.toNat < tbl.nextId := h.freeIssued id (hf ▸ List.mem_cons_self)
  exact
  { canonical := hseg ▸ Memory.wf_insert _ _ h.canonical
    lengths := h.lengths_insert hseg hl
    freeUnmapped := fun k hk => SegTable.unmapped_insert hseg (by rintro rfl; exact honce.1 hk)
      (h.freeUnmapped k (hpool k hk))
    freeNonzero := fun h0 => h.freeNonzero (hpool _ h0)
    freeIssued := fun k hk => hn ▸ h.freeIssued k (hpool k hk)
    freeOnce := honce.2
    freshUnmapped := fun k hk => SegTable.unmapped_insert hseg (by rintro rfl; omega)
      (h.freshUnmapped k (hn ▸ hk))
    nextIdRange := hn ▸ h.nextIdRange
    issuedAccounted := fun k hk => by
      rcases h.issuedAccounted k (hn ▸ hk) with hm | hm
      · exact .inl (SegTable.isSome_insert hseg hm)
      · rcases List.mem_cons.1 (hf ▸ hm) with rfl | hm
        · exact .inl (by rw [SegTable.segment_of_insert hseg, if_pos rfl]; rfl)
        · exact .inr hm
    programMapped := SegTable.isSome_insert hseg h.programMapped }

/-- Mapping a fresh id keeps a live table (R53, R69). -/
theorem SegTable.Live.mint (h : tbl.Live)
    (hseg : tbl'.seg = Memory.insert tbl.seg (BitVec.ofNat 32 tbl.nextId) words) (hf : tbl'.free = [])
    (hold : tbl.free = []) (hlt : tbl.nextId < 2 ^ 32) (hn : tbl'.nextId = tbl.nextId + 1)
    (hl : words.length < 2 ^ 32) : tbl'.Live := by
  have hid : (BitVec.ofNat 32 tbl.nextId).toNat = tbl.nextId := by
    rw [BitVec.toNat_ofNat, Nat.mod_eq_of_lt hlt]
  exact
  { canonical := hseg ▸ Memory.wf_insert _ _ h.canonical
    lengths := h.lengths_insert hseg hl
    freeUnmapped := by simp [hf]
    freeNonzero := by simp [hf]
    freeIssued := by simp [hf]
    freeOnce := by simp [hf]
    freshUnmapped := fun k hk => SegTable.unmapped_insert hseg (by rintro rfl; omega)
      (h.freshUnmapped k (by omega))
    nextIdRange := by omega
    issuedAccounted := fun k hk => .inl <| by
      by_cases hk' : k.toNat < tbl.nextId
      · have hm := h.issuedAccounted k hk'
        rw [hold] at hm
        exact SegTable.isSome_insert hseg (hm.resolve_right List.not_mem_nil)
      · have : k = BitVec.ofNat 32 tbl.nextId := BitVec.eq_of_toNat_eq (by omega)
        rw [SegTable.segment_of_insert hseg, if_pos this]; rfl
    programMapped := SegTable.isSome_insert hseg h.programMapped }

/-- Freeing a mapped id other than 0 keeps a live table (R54). -/
theorem SegTable.Live.free (h : tbl.Live) (h0 : id ≠ 0#32) (hm : (tbl.segment id).isSome) :
    SegTable.Live { tbl with seg := Memory.erase tbl.seg id, free := id :: tbl.free } := by
  have hseg := tbl.segment_erase id (fr := id :: tbl.free)
  have hnew : id ∉ tbl.free := fun hk => by simp [h.freeUnmapped id hk] at hm
  have hissued : id.toNat < tbl.nextId := by
    by_contra hge
    simp [h.freshUnmapped id (Nat.le_of_not_lt hge)] at hm
  exact
  { canonical := Memory.wf_erase _ h.canonical
    lengths := fun k ws hk => h.lengths k ws (by
      rw [hseg] at hk
      split at hk
      · cases hk
      · exact hk)
    freeUnmapped := fun k hk => by
      rw [hseg]
      split
      · rfl
      · next hne => exact h.freeUnmapped k ((List.mem_cons.1 hk).resolve_left hne)
    freeNonzero := by simp [h.freeNonzero, h0.symm]
    freeIssued := fun k hk => by
      rcases List.mem_cons.1 hk with rfl | hk
      · exact hissued
      · exact h.freeIssued k hk
    freeOnce := List.nodup_cons.2 ⟨hnew, h.freeOnce⟩
    freshUnmapped := fun k hk => by rw [hseg, h.freshUnmapped k hk, ite_self]
    nextIdRange := h.nextIdRange
    issuedAccounted := fun k hk => by
      by_cases hki : k = id
      · exact .inr (hki ▸ List.mem_cons_self)
      · rw [hseg, if_neg hki]
        exact (h.issuedAccounted k hk).imp_right (List.mem_cons_of_mem _)
    programMapped := by rw [hseg, if_neg h0.symm]; exact h.programMapped }

/-- Releasing every segment keeps a sound table (R58). -/
theorem SegTable.Sound.release (h : tbl.Sound) : tbl.segReleaseAll.Sound :=
  { canonical := SegTable.segReleaseAll_wf
    lengths := nofun
    freeUnmapped := nofun
    freeNonzero := nofun
    freeIssued := nofun
    freeOnce := List.nodup_nil
    freshUnmapped := fun _ _ => rfl
    nextIdRange := h.nextIdRange }

end

/-- An instruction run from `Running` keeps the invariants. -/
theorem ExecEffect.keeps_inv (h : s.Inv) (hr : s.run = .running) (he : ExecEffect s i t) : t.Inv := by
  have hlive := h.live hr
  have hpos := h.consumedRange
  cases he with
  | faulted | wrote | skipped | jumped | emitted => exact .of_live hlive hpos
  | @stored a b c words hw hlt =>
    refine .of_live (hlive.replace (by simp [hw]) ?_) hpos
    rw [List.length_set]; exact h.lengths _ _ hw
  | @mapped b c id tbl hseg hid =>
    have hl : (List.replicate (s.reg c).toNat 0#32).length < 2 ^ 32 := by
      rw [List.length_replicate]; exact (s.reg c).isLt
    refine .of_live ?_ hpos
    rcases hid with ⟨hf, hn⟩ | ⟨hold, hf, hlt, rfl, hn⟩
    · exact hlive.reuse hseg hf hn hl
    · exact hlive.mint hseg hf hold hlt hn hl
  | unmapped c h0 hm => exact .of_live (hlive.free h0 hm) hpos
  | copied b c h0 hw => exact .of_live (hlive.replace hlive.programMapped (h.lengths _ _ hw)) hpos
  | consumed c hb => exact .of_live hlive (List.getElem?_eq_some_iff.1 hb).1
  | halted => exact .of_halted hlive.release rfl hpos

/-- A completed step keeps the invariants. -/
theorem step_keeps_inv (h : s.Inv) (hs : step s = .next t) : t.Inv := by
  by_cases hr : s.run = .running
  · rcases step_running_effect hr hs with ⟨r, -, -, rfl⟩ | ⟨i, -, he⟩
    · exact .of_live (h.live hr) h.consumedRange
    · exact he.keeps_inv h hr
  · rw [step_terminal (RunState.terminal_iff.2 hr)] at hs
    cases hs; exact h

/-- Settles O53: a live table survives each operation but `SegReleaseAll`, after which a sound one is enough. -/
theorem everyStepKeepsTheInvariants : Obligations.EveryStepKeepsTheInvariants := by
  intro s h
  have hnext : ∃ t, step s = .next t := by
    by_cases hr : s.run = .running
    · exact step_answers_next hr (h.programMapped hr)
    · exact ⟨s, step_terminal (RunState.terminal_iff.2 hr)⟩
  obtain ⟨t, ht⟩ := hnext
  exact ⟨t, ht, step_keeps_inv h ht⟩

end Sys2Proof.Machine
end

section
/-! PROOFS. The family of 10_state.md, continued: `pc`, the registers, the streams and the program, each read off
`ExecEffect`, and what holds over runs. -/

namespace Sys2Proof.Machine

open Sys2Proof.Claims

variable {s t : State} {i : Instr}

/-! ## Reset and the end of a run -/

/-- After reset segment 0 is the program and nothing else is mapped (R36). -/
theorem State.resetWith_segment (prog : List Word) (input : List Byte) (id : Word) :
    (State.resetWith prog input).table.segment id = if id = 0#32 then some prog else none := by
  unfold SegTable.segment State.resetWith Memory.find
  exact if_congr eq_comm rfl rfl

/-- The table of a reset state is live: id 0 is the one id issued, and it is mapped. -/
theorem State.resetWith_live {prog : List Word} (hp : prog.length < 2 ^ 32) (input : List Byte) :
    (State.resetWith prog input).table.Live := by
  have hseg := State.resetWith_segment prog input
  exact
  { canonical := State.reset_wf prog input
    lengths := fun id words h => by
      rw [hseg] at h
      split at h
      · cases h; exact hp
      · cases h
    freeUnmapped := nofun
    freeNonzero := nofun
    freeIssued := nofun
    freeOnce := List.nodup_nil
    freshUnmapped := fun id h => by
      have h1 : 1 ≤ id.toNat := h
      rw [hseg, if_neg (by rintro rfl; simp at h1)]
    nextIdRange := by simp [State.resetWith]
    issuedAccounted := fun id h => .inl <| by
      have h0 : id = 0#32 := BitVec.eq_of_toNat_eq (Nat.lt_one_iff.1 h)
      rw [hseg, if_pos h0]; rfl
    programMapped := by rw [hseg]; rfl }

/-- Settles O52: the table of every reset state is live, and no byte is consumed. -/
theorem invariantsHoldAfterReset : Obligations.InvariantsHoldAfterReset := by
  have hinv : ∀ (prog : List Word) (input : List Byte), prog.length < 2 ^ 32 →
      (State.resetWith prog input).Inv :=
    fun prog input hp => .of_live (State.resetWith_live hp input) (Nat.zero_le _)
  exact ⟨hinv [] [] (by decide), hinv⟩

/-- Settles O44: by the run state, `FAULT_STATUS` being positive. -/
theorem exitStatusTellsSuccessFromFault : Obligations.ExitStatusTellsSuccessFromFault := by
  intro r
  cases r with
  | running | halted | ended =>
    simp [RunState.exitStatus, RunState.diagnostic, RunState.terminal, RunState.success]
  | faulted f =>
    have hne : (Config.faultStatus : Nat) ≠ 0 := Config.faultStatus.ne_zero
    simp [RunState.exitStatus, RunState.diagnostic, RunState.terminal, RunState.success, hne]

/-- Settles O43: a terminal state steps to itself. -/
theorem terminalStatesNeverChange : Obligations.TerminalStatesNeverChange :=
  fun _ k h => runsFor_of_fixed (step_terminal h) k

/-! ## The program counter -/

/-- Settles O45: `pc` is below the length of segment 0, which is below `2^32`. -/
theorem programCounterNeverWraps : Obligations.ProgramCounterNeverWraps := by
  intro s w h hc
  obtain ⟨n, hn, hlt⟩ := SegTable.cell_isSome_iff.1 (Option.isSome_iff_exists.2 ⟨w, hc⟩)
  obtain ⟨words, hw, rfl⟩ := SegTable.len_eq_some.1 hn
  have hlen := h.lengths _ _ hw
  have hpc : s.pc.toNat + 1 < 2 ^ 32 := by omega
  refine ⟨by omega, ?_⟩
  rw [BitVec.toNat_add]
  exact Nat.mod_eq_of_lt hpc

/-- Where an instruction that did not fault leaves `pc` (R24). -/
inductive PcMoves (s : State) : Instr → Word → Prop where
  | next {i : Instr} (hi : IsSequential i) : PcMoves s i (s.pc + 1#32)
  | jump (b c : Reg) : PcMoves s (.loadProgram b c) (s.reg c)
  | stay : PcMoves s .halt s.pc

/-- A fault keeps `pc`; otherwise `pc` moves by the instruction's rule, and the run state is kept or `Halted`. -/
theorem ExecEffect.pc_cases (he : ExecEffect s i t) :
    ((∃ f, t.run = .faulted f) ∧ t.pc = s.pc) ∨ ((t.run = s.run ∨ t.run = .halted) ∧ PcMoves s i t.pc) := by
  cases he with
  | faulted f => exact .inl ⟨⟨f, rfl⟩, rfl⟩
  | wrote _ _ hi | skipped hi => exact .inr ⟨.inl rfl, .next hi⟩
  | stored | mapped | unmapped | emitted | consumed => exact .inr ⟨.inl rfl, .next ⟨nofun, nofun⟩⟩
  | jumped b c | copied b c => exact .inr ⟨.inl rfl, .jump b c⟩
  | halted => exact .inr ⟨.inr rfl, .stay⟩

/-- Settles O28: by what the effect does to `pc`, the rule of each instruction. -/
theorem programCounterRule : Obligations.ProgramCounterRule := by
  intro i s hr
  obtain ⟨t, ht⟩ := exec_answers_next i s
  refine ⟨t, ht, ?_⟩
  rcases (exec_effect ht).pc_cases with ⟨⟨f, hf⟩, hpc⟩ | ⟨hrun, hpc⟩
  · simp [hf, hpc]
  · have hnf : ∀ f, t.run ≠ .faulted f := by
      intro f hf
      rcases hrun with h | h
      · rw [hr, hf] at h; cases h
      · rw [hf] at h; cases h
    refine ⟨fun f hf => absurd hf (hnf f), ?_⟩
    generalize t.pc = target at hpc
    cases hpc with
    | next hi => exact ⟨fun h => absurd h hi.1, fun b c h => absurd h (hi.2 b c), fun _ _ _ => rfl⟩
    | jump b c =>
      refine ⟨nofun, ?_, fun _ h => absurd rfl (h b c)⟩
      rintro _ _ ⟨⟩ _
      rfl
    | stay => exact ⟨fun _ => rfl, nofun, fun h => absurd rfl h⟩

/-! ## The registers -/

/-- An instruction writes no register, or the one of its column "writes" (R22). -/
theorem ExecEffect.registers (he : ExecEffect s i t) :
    RegistersKept s t ∨ ∃ a, writesOf s i = [a] ∧ RegistersKeptBut a s t := by
  cases he with
  | faulted | skipped | stored | unmapped | jumped | copied | emitted | halted => exact .inl fun _ => rfl
  | @wrote _ a v hw _ => exact .inr ⟨a, hw, fun r hr => State.reg_setReg_ne _ _ _ _ hr⟩
  | @mapped b _ id tbl _ _ => exact .inr ⟨b, rfl, fun r hr => State.reg_setReg_ne (s.setTable tbl) _ _ _ hr⟩
  | consumed c _ =>
    exact .inr ⟨c, rfl, fun r hr => State.reg_setReg_ne { s with inPos := s.inPos + 1 } _ _ _ hr⟩

/-- Two writes: the later one stands; writes of different registers commute. -/
theorem State.setReg_setReg (s : State) (r a : Reg) (v w : Word) :
    (s.setReg r v).setReg a w = if r = a then s.setReg a w else (s.setReg a w).setReg r v := by
  split
  · next h => subst h; simp [State.setReg]
  · next h =>
    have hv : r.val ≠ a.val := fun e => h (Fin.ext e)
    simp only [State.setReg]
    rw [Vector.set_comm _ _ hv]

/-! ### What each instruction answers, by what its shared operation answered -/

section
variable {a b c : Reg} {v : Word} {tbl : SegTable} {f : FatalFault} {byte : Byte}

theorem execConditionalMove_move (hc : s.reg c ≠ 0#32) :
    exec (.conditionalMove a b c) s = .next (s.setReg a (s.reg b)).advance := by
  simp only [exec, execConditionalMove]; rw [if_pos (conditionHolds_iff.2 hc)]

theorem execConditionalMove_keep (hc : s.reg c = 0#32) : exec (.conditionalMove a b c) s = .next s.advance := by
  simp only [exec, execConditionalMove]; rw [if_neg (mt conditionHolds_iff.1 (not_not_intro hc))]

theorem execSegmentLoad_ok (h : s.table.memRead (s.reg b) (s.reg c) = .ok v) :
    exec (.segmentLoad a b c) s = .next (s.setReg a v).advance := by
  simp only [exec, execSegmentLoad, loadAddress, h]

theorem execSegmentLoad_error (h : s.table.memRead (s.reg b) (s.reg c) = .error f) :
    exec (.segmentLoad a b c) s = raise f s := by
  simp only [exec, execSegmentLoad, loadAddress, h]

theorem execSegmentStore_ok (h : s.table.memWrite (s.reg a) (s.reg b) (s.reg c) = .ok tbl) :
    exec (.segmentStore a b c) s = .next (s.setTable tbl).advance := by
  simp only [exec, execSegmentStore, storeAddress, h]

theorem execSegmentStore_error (h : s.table.memWrite (s.reg a) (s.reg b) (s.reg c) = .error f) :
    exec (.segmentStore a b c) s = raise f s := by
  simp only [exec, execSegmentStore, storeAddress, h]

theorem execDivide_quotient (h : aluDiv (s.reg b) (s.reg c) = some v) :
    exec (.divide a b c) s = .next (s.setReg a v).advance := by
  simp only [exec, execDivide, h]

theorem execDivide_zero (h : aluDiv (s.reg b) (s.reg c) = none) :
    exec (.divide a b c) s = raise .divideByZero s := by
  simp only [exec, execDivide, h]

theorem execMapSegment_ok (h : s.table.segAlloc (s.reg c) = .ok (v, tbl)) :
    exec (.mapSegment b c) s = .next ((s.setTable tbl).setReg b v).advance := by
  simp only [exec, execMapSegment, h]

theorem execMapSegment_error (h : s.table.segAlloc (s.reg c) = .error f) :
    exec (.mapSegment b c) s = raise f s := by
  simp only [exec, execMapSegment, h]

theorem execUnmapSegment_ok (h : s.table.segFree (s.reg c) = .ok tbl) :
    exec (.unmapSegment c) s = .next (s.setTable tbl).advance := by
  simp only [exec, execUnmapSegment, h]

theorem execUnmapSegment_error (h : s.table.segFree (s.reg c) = .error f) :
    exec (.unmapSegment c) s = raise f s := by
  simp only [exec, execUnmapSegment, h]

theorem execLoadProgram_ok (h : s.table.segReplaceProgram (s.reg b) = .ok tbl) :
    exec (.loadProgram b c) s = .next ((s.setTable tbl).setPc (s.reg c)) := by
  simp only [exec, execLoadProgram, h]

theorem execLoadProgram_error (h : s.table.segReplaceProgram (s.reg b) = .error f) :
    exec (.loadProgram b c) s = raise f s := by
  simp only [exec, execLoadProgram, h]

theorem execOutput_sentinel (h : s.reg c = sentinel) : exec (.output c) s = .next s.advance := by
  simp only [exec, execOutput]; rw [if_pos (isSentinel_iff.2 h)]

theorem execOutput_byte (h1 : s.reg c ≠ sentinel) (h2 : ¬256 ≤ (s.reg c).toNat) :
    exec (.output c) s = .next (s.outByte ((s.reg c).setWidth 8)).advance := by
  simp only [exec, execOutput]
  rw [if_neg (mt isSentinel_iff.1 h1), if_neg (mt exceedsByte_iff.1 h2)]

theorem execOutput_range (h1 : s.reg c ≠ sentinel) (h2 : 256 ≤ (s.reg c).toNat) :
    exec (.output c) s = raise (.outputRange (s.reg c)) s := by
  simp only [exec, execOutput]
  rw [if_neg (mt isSentinel_iff.1 h1), if_pos (exceedsByte_iff.2 h2)]

theorem execInput_byte (h : s.input[s.inPos]? = some byte) :
    exec (.input c) s = .next (State.setReg { s with inPos := s.inPos + 1 } c (byte.setWidth 32)).advance := by
  simp only [exec, execInput, State.inByte_of_some s byte h]

theorem execInput_end (h : s.input[s.inPos]? = none) :
    exec (.input c) s = .next (s.setReg c sentinel).advance := by
  simp only [exec, execInput, State.inByte_of_none s h]

end

/-! ### Non-influence -/

/-- Register `r` set to `v` beforehand has no influence: the instruction overwrites it and ends the same, or leaves
it as it was set and ends the same otherwise. -/
def NoInfluence (i : Instr) (s : State) (r : Reg) (v : Word) : Prop :=
  ∃ t, exec i s = .next t ∧
    ((r ∈ writesOf s i ∧ exec i (s.setReg r v) = .next t) ∨
     ((r ∈ writesOf s i → t.run ≠ .running) ∧ exec i (s.setReg r v) = .next (t.setReg r v)))

variable {r a : Reg} {v w : Word}

/-- An effect that writes no register carries register `r` along. -/
theorem NoInfluence.of_kept (hw : writesOf s i = []) (hs : exec i s = .next t)
    (hu : exec i (s.setReg r v) = .next (t.setReg r v)) : NoInfluence i s r v :=
  ⟨t, hs, .inr ⟨by simp [hw], hu⟩⟩

/-- A fault carries register `r` along, whatever the instruction would have written. -/
theorem NoInfluence.of_fault {f : FatalFault} (hs : exec i s = raise f s)
    (hu : exec i (s.setReg r v) = raise f (s.setReg r v)) : NoInfluence i s r v :=
  ⟨_, hs, .inr ⟨fun _ => nofun, hu⟩⟩

/-- A write to `a`, of a value that does not depend on `r`, overwrites `r` or carries it along. -/
theorem NoInfluence.of_wrote {p : State} (hw : writesOf s i = [a]) (hs : exec i s = .next (p.setReg a w).advance)
    (hu : exec i (s.setReg r v) = .next ((p.setReg r v).setReg a w).advance) : NoInfluence i s r v := by
  rw [State.setReg_setReg] at hu
  refine ⟨_, hs, ?_⟩
  by_cases h : r = a
  · rw [if_pos h] at hu
    exact .inl ⟨by simp [hw, h], hu⟩
  · rw [if_neg h] at hu
    exact .inr ⟨by simp [hw, h], hu⟩

/-- A register outside the column "reads" has no influence on any instruction (R22). -/
theorem exec_noInfluence (i : Instr) (s : State) (v : Word) (hr : r ∉ readsOf s i) : NoInfluence i s r v := by
  have hread : ∀ q ∈ readsOf s i, (s.setReg r v).reg q = s.reg q := fun q hq =>
    State.reg_setReg_ne s r q v (ne_of_mem_of_not_mem hq hr)
  cases i with
  | conditionalMove a b c =>
    by_cases h0 : s.reg c = 0#32
    · have hc := hread c (by simp [readsOf, h0])
      exact .of_kept (if_pos h0) (execConditionalMove_keep h0) (execConditionalMove_keep (hc.trans h0))
    · have hb := hread b (by simp [readsOf, h0])
      have hc := hread c (by simp [readsOf, h0])
      exact .of_wrote (if_neg h0) (execConditionalMove_move h0)
        (hb ▸ execConditionalMove_move (hc.trans_ne h0))
  | segmentLoad a b c =>
    have hb := hread b (by simp [readsOf])
    have hc := hread c (by simp [readsOf])
    cases hm : s.table.memRead (s.reg b) (s.reg c) with
    | ok w => exact .of_wrote rfl (execSegmentLoad_ok hm) (execSegmentLoad_ok (by rw [hb, hc]; exact hm))
    | error f => exact .of_fault (execSegmentLoad_error hm) (execSegmentLoad_error (by rw [hb, hc]; exact hm))
  | segmentStore a b c =>
    have ha := hread a (by simp [readsOf])
    have hb := hread b (by simp [readsOf])
    have hc := hread c (by simp [readsOf])
    cases hm : s.table.memWrite (s.reg a) (s.reg b) (s.reg c) with
    | ok tbl =>
      exact .of_kept rfl (execSegmentStore_ok hm) (execSegmentStore_ok (by rw [ha, hb, hc]; exact hm))
    | error f =>
      exact .of_fault (execSegmentStore_error hm) (execSegmentStore_error (by rw [ha, hb, hc]; exact hm))
  | add a b c =>
    have hb := hread b (by simp [readsOf])
    have hc := hread c (by simp [readsOf])
    exact .of_wrote rfl execAdd_eq (by rw [execAdd_eq, hb, hc])
  | multiply a b c =>
    have hb := hread b (by simp [readsOf])
    have hc := hread c (by simp [readsOf])
    exact .of_wrote rfl execMultiply_eq (by rw [execMultiply_eq, hb, hc])
  | divide a b c =>
    have hb := hread b (by simp [readsOf])
    have hc := hread c (by simp [readsOf])
    cases hq : aluDiv (s.reg b) (s.reg c) with
    | some w => exact .of_wrote rfl (execDivide_quotient hq) (execDivide_quotient (by rw [hb, hc, hq]))
    | none => exact .of_fault (execDivide_zero hq) (execDivide_zero (by rw [hb, hc, hq]))
  | nand a b c =>
    have hb := hread b (by simp [readsOf])
    have hc := hread c (by simp [readsOf])
    exact .of_wrote rfl execNand_eq (by rw [execNand_eq, hb, hc])
  | halt => exact .of_kept rfl execHalt_eq execHalt_eq
  | mapSegment b c =>
    have hc := hread c (by simp [readsOf])
    cases hm : s.table.segAlloc (s.reg c) with
    | ok p =>
      exact .of_wrote (p := s.setTable p.2) rfl (execMapSegment_ok hm)
        (execMapSegment_ok (by rw [hc]; exact hm))
    | error f => exact .of_fault (execMapSegment_error hm) (execMapSegment_error (by rw [hc]; exact hm))
  | unmapSegment c =>
    have hc := hread c (by simp [readsOf])
    cases hm : s.table.segFree (s.reg c) with
    | ok tbl => exact .of_kept rfl (execUnmapSegment_ok hm) (execUnmapSegment_ok (by rw [hc]; exact hm))
    | error f => exact .of_fault (execUnmapSegment_error hm) (execUnmapSegment_error (by rw [hc]; exact hm))
  | output c =>
    have hc := hread c (by simp [readsOf])
    by_cases h1 : s.reg c = sentinel
    · exact .of_kept rfl (execOutput_sentinel h1) (execOutput_sentinel (hc.trans h1))
    · by_cases h2 : 256 ≤ (s.reg c).toNat
      · exact .of_fault (execOutput_range h1 h2) (hc ▸ execOutput_range (hc ▸ h1) (hc ▸ h2))
      · exact .of_kept rfl (execOutput_byte h1 h2) (hc ▸ execOutput_byte (hc ▸ h1) (hc ▸ h2))
  | input c =>
    cases hb : s.input[s.inPos]? with
    | some byte =>
      exact .of_wrote (p := { s with inPos := s.inPos + 1 }) rfl (execInput_byte hb) (execInput_byte hb)
    | none => exact .of_wrote rfl (execInput_end hb) (execInput_end hb)
  | loadProgram b c =>
    have hb := hread b (by simp [readsOf])
    have hc := hread c (by simp [readsOf])
    cases hm : s.table.segReplaceProgram (s.reg b) with
    | ok tbl =>
      exact .of_kept rfl (execLoadProgram_ok hm) (hc ▸ execLoadProgram_ok (by rw [hb]; exact hm))
    | error f => exact .of_fault (execLoadProgram_error hm) (execLoadProgram_error (by rw [hb]; exact hm))
  | loadImmediate dest value => exact .of_wrote rfl execLoadImmediate_eq execLoadImmediate_eq

/-- Settles O27: the frame by the register an effect writes, non-influence by the instructions' cases. -/
theorem registerReadAndWriteTable : Obligations.RegisterReadAndWriteTable := by
  refine ⟨fun i s t h r hr => ?_, fun i s r v hr _ => ?_⟩
  · rcases (exec_effect h).registers with hk | ⟨a, ha, hk⟩
    · exact hk r
    · exact hk r (by simpa [ha] using hr)
  · obtain ⟨t, ht, ⟨hw, hu⟩ | ⟨hw, hu⟩⟩ := exec_noInfluence i s v hr
    · exact ⟨t, t, ht, hu, rfl, rfl, rfl, rfl, rfl, rfl, fun _ _ => rfl, fun _ _ => rfl, fun h => absurd hw h⟩
    · exact ⟨t, t.setReg r v, ht, hu, rfl, rfl, rfl, rfl, rfl, rfl, fun q hq => State.reg_setReg_ne t r q v hq,
        fun h hrun => absurd hrun (hw h), fun _ => State.reg_setReg_self t r v⟩

/-! ## The streams -/

/-- What an instruction does to the streams: Output may append its byte, Input may consume one (R33, R34). -/
theorem ExecEffect.streams (he : ExecEffect s i t) :
    t.input = s.input ∧
    (t.out = s.out ∨ ∃ c byte, i = .output c ∧ byte.toNat = (s.reg c).toNat ∧ t.out = s.out ++ [byte]) ∧
    (t.inPos = s.inPos ∨ ∃ c byte, i = .input c ∧ s.input[s.inPos]? = some byte ∧
      (t.reg c).toNat = byte.toNat ∧ t.inPos = s.inPos + 1) := by
  cases he with
  | faulted | wrote | skipped | stored | mapped | unmapped | jumped | copied | halted =>
    exact ⟨rfl, .inl rfl, .inl rfl⟩
  | emitted c hv =>
    have hbyte : ((s.reg c).setWidth 8).toNat = (s.reg c).toNat := by
      rw [BitVec.toNat_setWidth]; omega
    exact ⟨rfl, .inr ⟨c, _, rfl, hbyte, rfl⟩, .inl rfl⟩
  | @consumed c byte hb =>
    have hword : (byte.setWidth 32).toNat = byte.toNat := by
      have := byte.isLt
      rw [BitVec.toNat_setWidth]; omega
    refine ⟨rfl, .inl rfl, .inr ⟨c, byte, rfl, hb, ?_, rfl⟩⟩
    rw [State.advance_reg, State.reg_setReg_self, hword]

/-- Settles O46: by what the instruction at `(0, pc)` does to the streams. -/
theorem streamsMoveOneByteInOrder : Obligations.StreamsMoveOneByteInOrder := by
  intro s t hr h
  rcases step_running_effect hr h with ⟨r, -, -, rfl⟩ | ⟨i, hf, he⟩
  · exact ⟨rfl, .inl rfl, .inl rfl⟩
  · obtain ⟨hin, hout, hpos⟩ := he.streams
    refine ⟨hin, hout.imp_right ?_, hpos.imp_right ?_⟩
    · rintro ⟨c, byte, rfl, h⟩; exact ⟨c, byte, hf, h⟩
    · rintro ⟨c, byte, rfl, h⟩; exact ⟨c, byte, hf, h⟩

/-- From `s` to `t` at most `k` bytes were appended to the output and at most `k` consumed. -/
def StreamsGrowBy (k : Nat) (s t : State) : Prop :=
  t.input = s.input ∧ (∃ more : List Byte, t.out = s.out ++ more ∧ more.length ≤ k) ∧
    s.inPos ≤ t.inPos ∧ t.inPos ≤ s.inPos + k

theorem StreamsGrowBy.refl (k : Nat) (s : State) : StreamsGrowBy k s s :=
  ⟨rfl, ⟨[], (List.append_nil _).symm, Nat.zero_le _⟩, Nat.le_refl _, Nat.le_add_right _ _⟩

theorem StreamsGrowBy.trans {j k : Nat} {u : State} (h1 : StreamsGrowBy j s u) (h2 : StreamsGrowBy k u t) :
    StreamsGrowBy (j + k) s t := by
  obtain ⟨hin1, ⟨m1, ho1, hl1⟩, hp1, hq1⟩ := h1
  obtain ⟨hin2, ⟨m2, ho2, hl2⟩, hp2, hq2⟩ := h2
  refine ⟨hin2.trans hin1, ⟨m1 ++ m2, ?_, ?_⟩, by omega, by omega⟩
  · rw [ho2, ho1, List.append_assoc]
  · rw [List.length_append]; omega

/-- One step moves each stream by at most one byte, from any state. -/
theorem step_streamsGrow (h : step s = .next t) : StreamsGrowBy 1 s t := by
  by_cases hr : s.run = .running
  · obtain ⟨hin, hout, hpos⟩ := streamsMoveOneByteInOrder s t hr h
    refine ⟨hin, ?_, ?_⟩
    · rcases hout with ho | ⟨c, byte, -, -, ho⟩
      · exact ⟨[], by rw [ho, List.append_nil], Nat.zero_le _⟩
      · exact ⟨[byte], ho, Nat.le_refl _⟩
    · rcases hpos with hp | ⟨c, byte, -, -, -, hp⟩ <;> omega
  · rw [step_terminal (RunState.terminal_iff.2 hr)] at h
    cases h; exact .refl 1 s

/-- Settles O47: by induction on the number of steps, each growing the streams by at most one byte. -/
theorem outputIsNeverRetracted : Obligations.OutputIsNeverRetracted := by
  intro k
  induction k with
  | zero => intro s t h; rw [runsFor_zero.1 h]; exact StreamsGrowBy.refl 0 s
  | succ k ih =>
    intro s t h
    obtain ⟨u, hu, hrest⟩ := runsFor_succ.1 h
    have hgrow : StreamsGrowBy (1 + k) s t := (step_streamsGrow hu).trans (ih u t hrest)
    rwa [Nat.add_comm] at hgrow

/-! ## The segments -/

/-- What becomes of a mapped segment when an instruction completes. -/
inductive SegmentFate (s : State) (id : Word) : Instr → Option Segment → Prop where
  | kept {i : Instr} : SegmentFate s id i (s.table.segment id)
  | stored (a b c : Reg) {words : Segment} (ha : s.reg a = id) (hw : s.table.segment id = some words) :
      SegmentFate s id (.segmentStore a b c) (some (words.set (s.reg b).toNat (s.reg c)))
  | replaced (b c : Reg) {words : Segment} (hid : id = 0#32) (h0 : s.reg b ≠ 0#32)
      (hw : s.table.segment (s.reg b) = some words) : SegmentFate s id (.loadProgram b c) (some words)
  | freed (c : Reg) (hid : id ≠ 0#32) : SegmentFate s id (.unmapSegment c) none
  | released : SegmentFate s id .halt none

/-- A mapped segment is kept but for a store into it, its replacement as the program, and its release: the id
MapSegment takes is never a mapped one. -/
theorem ExecEffect.segmentFate {id : Word} (h : s.table.Sound) (hm : (s.table.segment id).isSome)
    (he : ExecEffect s i t) : SegmentFate s id i (t.table.segment id) := by
  cases he with
  | faulted | wrote | skipped | jumped | emitted | consumed => exact .kept
  | @stored a b c words hw hlt =>
    rw [State.advance_table, State.setTable_table, SegTable.segment_insert]
    split
    · next hid => exact .stored a b c hid.symm (hid ▸ hw)
    · exact .kept
  | @mapped b c new tbl hseg hid =>
    have hnew := h.allocated_unmapped hid
    have hne : id ≠ new := by rintro rfl; simp [hnew] at hm
    rw [State.advance_table, State.setReg_table, State.setTable_table, SegTable.segment_of_insert hseg, if_neg hne]
    exact .kept
  | unmapped c h0 =>
    rw [State.advance_table, State.setTable_table, SegTable.segment_erase]
    split
    · next hid => exact .freed c (hid ▸ h0)
    · exact .kept
  | copied b c h0 hw =>
    rw [State.setPc_table, State.setTable_table, SegTable.segment_insert]
    split
    · next hid => exact .replaced b c hid h0 hw
    · exact .kept
  | halted => exact .released

/-- The same of a step: the instruction is the one at `(0, pc)`. -/
theorem step_segmentFate {id : Word} (h : s.Inv) (hr : s.run = .running) (hm : (s.table.segment id).isSome)
    (hs : step s = .next t) :
    t.table.segment id = s.table.segment id ∨ ∃ i, Fetches s i ∧ SegmentFate s id i (t.table.segment id) := by
  rcases step_running_effect hr hs with ⟨r, -, -, rfl⟩ | ⟨i, hf, he⟩
  · exact .inl rfl
  · exact .inr ⟨i, hf, he.segmentFate (h.live hr).toSound hm⟩

/-- Settles O48: by the segment's fate; a store keeps the length, a released segment has none. -/
theorem segmentLengthIsImmutable : Obligations.SegmentLengthIsImmutable := by
  intro s t id n k h hs hn hk
  obtain ⟨ws, hws, rfl⟩ := SegTable.len_eq_some.1 hn
  obtain ⟨wt, hwt, rfl⟩ := SegTable.len_eq_some.1 hk
  by_cases hr : s.run = .running
  · rcases step_segmentFate h hr (Option.isSome_iff_exists.2 ⟨ws, hws⟩) hs with heq | ⟨i, hf, hfate⟩
    · left; rw [hws, hwt] at heq; cases heq; rfl
    · rw [hwt] at hfate
      generalize hg : some wt = after at hfate
      cases hfate with
      | kept => left; rw [hws] at hg; cases hg; rfl
      | stored a b c ha hw => left; rw [hws] at hw; cases hw; cases hg; exact List.length_set
      | replaced b c hid h0 hw =>
        cases hg
        exact .inr ⟨hid, b, c, hf, h0, SegTable.len_eq_some.2 ⟨wt, hw, rfl⟩⟩
      | freed | released => cases hg
  · left
    rw [step_terminal (RunState.terminal_iff.2 hr)] at hs
    cases hs; rw [hws] at hwt; cases hwt; rfl

/-- Tables that agree on a segment agree on its cells. -/
theorem SegTable.cell_congr {p q : SegTable} {id : Word} (h : p.segment id = q.segment id) (off : Word) :
    p.cell id off = q.cell id off := by
  unfold SegTable.cell; rw [h]

/-- Settles O49: by the fate of segment 0, which no UnmapSegment frees; a store changes the cell it names only. -/
theorem programChangesOnlyByStoreLoadProgramOrHalt :
    Obligations.ProgramChangesOnlyByStoreLoadProgramOrHalt := by
  intro s t off h hr hs hne
  rcases step_segmentFate h hr (h.programMapped hr) hs with heq | ⟨i, hf, hfate⟩
  · exact absurd (SegTable.cell_congr heq off) hne
  · generalize hg : t.table.segment 0#32 = after at hfate
    cases hfate with
    | kept => exact absurd (SegTable.cell_congr hg off) hne
    | stored a b c ha hw =>
      refine .inl ⟨a, b, c, hf, ha, ?_⟩
      by_contra hb
      apply hne
      rw [SegTable.cell_of_segment hg, SegTable.cell_of_segment hw,
        List.getElem?_set_ne fun e => hb (BitVec.eq_of_toNat_eq e)]
    | replaced b c hid h0 hw => exact .inr (.inl ⟨b, c, hf, h0⟩)
    | freed c hid => exact absurd rfl hid
    | released => exact .inr (.inr hf)

end Sys2Proof.Machine
end

section
/-! PROOFS. The family of 20_memory.md: what the segment table's operations answer and what each leaves unchanged,
then the statements over one instruction and over several in a row, each read off a segment lookup. -/

namespace Sys2Proof.Machine

open Sys2Proof.Claims

/-! ## The three-register words -/

section
variable {op pad : Nat} {a b c : Reg}

/-- The fields of a three-register word fit 32 bits, so that it is their sum. -/
theorem threeRegisterWord_toNat (hop : op < 16) (hpad : pad < 2 ^ 19) :
    (threeRegisterWord op pad a b c).toNat = op * 2 ^ 28 + pad * 2 ^ 9 + a.val * 64 + b.val * 8 + c.val := by
  have ha := a.isLt
  have hb := b.isLt
  have hc := c.isLt
  unfold threeRegisterWord
  rw [BitVec.toNat_ofNat]
  exact Nat.mod_eq_of_lt (by omega)

/-- A word of opcode 0 to 12 is the instruction the opcode map selects, whatever bits 27:9 hold (R98, R102). -/
theorem decodesAs_selectThreeRegister (op : Fin 13) (a b c : Reg) :
    DecodesAs op.val a b c (selectThreeRegister op a b c) := by
  intro pad hpad
  have ha := a.isLt
  have hb := b.isLt
  have hc := c.isLt
  have hword := threeRegisterWord_toNat (a := a) (b := b) (c := c) (show op.val < 16 by omega) hpad
  have hop : (threeRegisterWord op pad a b c).toNat / 2 ^ 28 = op := by omega
  have hA : fieldA (threeRegisterWord op pad a b c) = a := Fin.ext (by rw [fieldA_val]; omega)
  have hB : fieldB (threeRegisterWord op pad a b c) = b := Fin.ext (by rw [fieldB_val]; omega)
  have hC : fieldC (threeRegisterWord op pad a b c) = c := Fin.ext (by rw [fieldC_val]; omega)
  have hdec : decode (threeRegisterWord op pad a b c) = .threeRegister op a b c := by
    rw [decode_threeRegister (hop.trans_lt op.isLt), hA, hB, hC]
    exact congrArg (Decoded.threeRegister · a b c) (Fin.ext hop)
  rw [decodeInstr, hdec, selectInstr]

end

/-! ## The shapes of an outcome, in the statements' words -/

section
variable {s t : State} {i : Instr} {a : Reg} {v : Word} {f : FatalFault}

/-- Raising a fault changes the run state alone (R241). -/
theorem faults_of_raise (h : exec i s = raise f s) : Faults i f s :=
  ⟨_, h, rfl, rfl, fun _ => rfl, ⟨⟨fun _ _ => rfl, fun _ => rfl⟩, rfl, rfl⟩, rfl, rfl, rfl⟩

/-- An answer that is one register write and the step of `pc` changes nothing else. -/
theorem writesRegister_of_setReg (h : exec i s = .next (s.setReg a v).advance) : WritesRegister i a v s :=
  ⟨_, h, State.reg_setReg_self _ _ _, rfl, rfl, fun _ hr => State.reg_setReg_ne _ _ _ _ hr,
    ⟨⟨fun _ _ => rfl, fun _ => rfl⟩, rfl, rfl⟩, rfl, rfl, rfl⟩

/-- A step from `Running` with an instruction at `(0, pc)` is that instruction's own rule (R131, R136). -/
theorem step_of_cell {w : Word} (hr : s.run = .running) (hc : s.table.cell 0#32 s.pc = some w)
    (hd : decodeInstr w = .ok i) : step s = exec i s := by
  rw [step_of_running hr, cycle_of_fetch (State.fetch_word.2 hc), hd]

end

/-! ## The table's operations -/

section
variable {t t' : SegTable} {id k n : Word} {rest : List Word}

/-- Tables that agree on a segment agree on its length. -/
theorem SegTable.len_congr (h : t'.segment k = t.segment k) : t'.len k = t.len k := by
  unfold SegTable.len; rw [h]

/-- `SegAlloc` with a pool: the id freed last, popped (R53). -/
theorem SegTable.segAlloc_reuse (h : t.free = id :: rest) (n : Word) :
    ∃ t', t.segAlloc n = .ok (id, t') ∧ t'.free = rest ∧ t'.nextId = t.nextId := by
  simp [SegTable.segAlloc, h]

/-- `SegAlloc` without a pool: the next fresh id (R53). -/
theorem SegTable.segAlloc_mint (h : t.free = []) (hn : t.nextId < 2 ^ 32) (n : Word) :
    ∃ t', t.segAlloc n = .ok (BitVec.ofNat 32 t.nextId, t') ∧ t'.free = [] ∧ t'.nextId = t.nextId + 1 := by
  have hlt : ¬2 ^ 32 ≤ t.nextId := Nat.not_le.2 hn
  simp only [SegTable.segAlloc, h, if_neg hlt]
  exact ⟨_, rfl, rfl, rfl⟩

/-- A lookup after `SegAlloc`: the new segment is zeros, every other is as before (R53, R69). -/
theorem SegTable.segment_segAlloc (h : t.segAlloc n = .ok (id, t')) (k : Word) :
    t'.segment k = if k = id then some (List.replicate n.toNat 0#32) else t.segment k :=
  SegTable.segment_of_insert (SegTable.segAlloc_ok h).1 k

theorem SegTable.segment_segAlloc_ne (h : t.segAlloc n = .ok (id, t')) (hk : k ≠ id) :
    t'.segment k = t.segment k := by
  rw [SegTable.segment_segAlloc h, if_neg hk]

/-- The length of a new segment is the one asked for (R53). -/
theorem SegTable.len_segAlloc (h : t.segAlloc n = .ok (id, t')) : t'.len id = some n.toNat :=
  SegTable.len_eq_some.2 ⟨_, by rw [SegTable.segment_segAlloc h, if_pos rfl], List.length_replicate⟩

/-- Every cell of a new segment is zero (R69). -/
theorem SegTable.cell_segAlloc (h : t.segAlloc n = .ok (id, t')) (off : Word) (hoff : off.toNat < n.toNat) :
    t'.cell id off = some 0#32 := by
  have hseg : t'.segment id = some (List.replicate n.toNat 0#32) := by
    rw [SegTable.segment_segAlloc h, if_pos rfl]
  rw [SegTable.cell_of_segment hseg, List.getElem?_replicate, if_pos hoff]

/-- A lookup after `SegFree`: the id is unmapped, every other is as before (R54). -/
theorem SegTable.segment_segFree (h : t.segFree id = .ok t') (k : Word) :
    t'.segment k = if k = id then none else t.segment k := by
  obtain ⟨-, -, rfl⟩ := SegTable.segFree_ok.1 h
  exact t.segment_erase id k _

/-- What `SegFree` does to the pool and the count of issued ids (R54). -/
theorem SegTable.pool_segFree (h : t.segFree id = .ok t') : t'.free = id :: t.free ∧ t'.nextId = t.nextId := by
  obtain ⟨-, -, rfl⟩ := SegTable.segFree_ok.1 h
  exact ⟨rfl, rfl⟩

/-- A freed id is unmapped, so that it is not the next one freed. -/
theorem SegTable.segFree_ne {t'' : SegTable} {j : Word} (h1 : t.segFree id = .ok t') (h2 : t'.segFree j = .ok t'') :
    j ≠ id := by
  rintro rfl
  obtain ⟨-, hm, -⟩ := SegTable.segFree_ok.1 h2
  simp [SegTable.segment_segFree h1] at hm

/-- Settles O34: the pool is a stack, the two ids differ, and the second allocation leaves the first's segment. -/
theorem freedIdsComeBackLastFirst : Obligations.FreedIdsComeBackLastFirst := by
  intro t t1 t2 i j n m h1 h2
  obtain ⟨hf1, hn1⟩ := SegTable.pool_segFree h1
  obtain ⟨hf2, hn2⟩ := SegTable.pool_segFree h2
  obtain ⟨t3, h3, hf3, hn3⟩ := SegTable.segAlloc_reuse hf2 n
  obtain ⟨t4, h4, hf4, hn4⟩ := SegTable.segAlloc_reuse (hf3.trans hf1) m
  have hj : t4.segment j = t3.segment j := SegTable.segment_segAlloc_ne h4 (SegTable.segFree_ne h1 h2)
  refine ⟨t3, t4, h3, h4, hf4, by omega, SegTable.len_segAlloc h4, ?_, SegTable.cell_segAlloc h4,
    fun off hoff => ?_⟩
  · rw [SegTable.len_congr hj, SegTable.len_segAlloc h3]
  · rw [SegTable.cell_congr hj, SegTable.cell_segAlloc h3 off hoff]

end

/-! ## MapSegment and UnmapSegment -/

section
variable {s t : State} {b c : Reg} {id n : Word} {tbl : SegTable}

/-- `SegAlloc` adds a segment of zeros and leaves every other as it was. -/
theorem newSegment_of_segAlloc (h : s.table.segAlloc n = .ok (id, t.table)) : NewSegment id n.toNat s t :=
  ⟨SegTable.len_segAlloc h, SegTable.cell_segAlloc h, fun _ hk =>
    ⟨SegTable.len_congr (SegTable.segment_segAlloc_ne h hk),
      SegTable.cell_congr (SegTable.segment_segAlloc_ne h hk)⟩⟩

/-- MapSegment completed: the table is the one `SegAlloc` answers, `x[b]` the id, and nothing else changes but
`pc`. -/
theorem execMapSegment_completes (h : s.table.segAlloc (s.reg c) = .ok (id, tbl)) :
    ∃ t, exec (.mapSegment b c) s = .next t ∧ t.table = tbl ∧ t.reg b = id ∧
      NewSegment id (s.reg c).toNat s t ∧ t.pc = s.pc + 1#32 ∧ t.run = s.run ∧
      RegistersKeptBut b s t ∧ StreamsKept s t :=
  ⟨_, execMapSegment_ok h, rfl, State.reg_setReg_self _ _ _, newSegment_of_segAlloc h, rfl, rfl,
    fun _ hr => State.reg_setReg_ne (s.setTable tbl) _ _ _ hr, rfl, rfl, rfl⟩

/-- Settles O21: by the three answers of `SegAlloc`. -/
theorem mapSegmentReusesLastFreedElseMints : Obligations.MapSegmentReusesLastFreedElseMints := by
  intro a b c s
  refine ⟨decodesAs_selectThreeRegister 8 a b c, fun i rest hf => ?_, fun hf hn => ?_, fun hf hn => ?_⟩
  · obtain ⟨tbl, halloc, hfree, hnext⟩ := SegTable.segAlloc_reuse hf (s.reg c)
    obtain ⟨t, ht, rfl, hreg, hnew, hkept⟩ := execMapSegment_completes (b := b) halloc
    exact ⟨t, ht, hreg, hfree, hnext, hnew, hkept⟩
  · obtain ⟨tbl, halloc, hfree, hnext⟩ := SegTable.segAlloc_mint hf hn (s.reg c)
    obtain ⟨t, ht, rfl, hreg, hnew, hkept⟩ := execMapSegment_completes (b := b) halloc
    have hid : (t.reg b).toNat = s.table.nextId := by
      rw [hreg, BitVec.toNat_ofNat, Nat.mod_eq_of_lt hn]
    exact ⟨t, ht, hid, hfree, hnext, hreg ▸ hnew, hkept⟩
  · exact faults_of_raise (execMapSegment_error (SegTable.segAlloc_error.2 ⟨rfl, hf, hn.ge⟩))

/-- Settles O22: by the three answers of `SegFree`. -/
theorem unmapSegmentFreesTheIdOrFaults : Obligations.UnmapSegmentFreesTheIdOrFaults := by
  intro a b c s
  refine ⟨decodesAs_selectThreeRegister 9 a b c, fun h0 n hn => ?_, fun h0 => ?_, fun h0 hu => ?_⟩
  · obtain ⟨words, hw, -⟩ := SegTable.len_eq_some.1 hn
    have hfree := SegTable.segFree_ok.2 ⟨h0, Option.isSome_iff_exists.2 ⟨words, hw⟩, rfl⟩
    have hseg := SegTable.segment_segFree hfree
    exact ⟨_, execUnmapSegment_ok hfree, (hseg _).trans (if_pos rfl), rfl, rfl, fun k hk =>
      ⟨SegTable.len_congr ((hseg k).trans (if_neg hk)), SegTable.cell_congr ((hseg k).trans (if_neg hk))⟩,
      rfl, rfl, fun _ => rfl, rfl, rfl, rfl⟩
  · exact faults_of_raise (execUnmapSegment_error (SegTable.segFree_error.2 (.inl ⟨h0, rfl⟩)))
  · exact faults_of_raise (execUnmapSegment_error (SegTable.segFree_error.2 (.inr ⟨h0, hu, rfl⟩)))

end

/-! ## A store or a copy, and what follows it -/

section
variable {s t : State} {a b c : Reg}

/-- A store changes no segment but the one it names, whether it completes or faults (R56). -/
theorem execSegmentStore_segment_ne (h : exec (.segmentStore a b c) s = .next t) {k : Word} (hk : k ≠ s.reg a) :
    t.table.segment k = s.table.segment k := by
  rcases execSegmentStore_cases h with ⟨words, -, -, rfl⟩ | ⟨-, rfl⟩ | ⟨-, -, -, rfl⟩
  · exact (SegTable.segment_insert _ _ _ _).trans (if_neg hk)
  · rfl
  · rfl

/-- After a completed store the address holds the stored word (R56). -/
theorem execSegmentStore_cell (h : exec (.segmentStore a b c) s = .next t) (hr : t.run = .running) :
    t.table.cell (s.reg a) (s.reg b) = some (s.reg c) := by
  rcases execSegmentStore_cases h with ⟨words, -, hlt, rfl⟩ | ⟨-, rfl⟩ | ⟨-, -, -, rfl⟩
  · rw [State.advance_table, State.setTable_table, SegTable.cell_insert, if_pos rfl, List.getElem?_set_self hlt]
  · cases hr
  · cases hr

/-- After a completed copy segment 0 is the source segment, no other segment changed, and `pc` is the target
(R57, R202). -/
theorem execLoadProgram_copy (h : exec (.loadProgram b c) s = .next t) (hr : t.run = .running)
    (h0 : s.reg b ≠ 0#32) : t.pc = s.reg c ∧ t.table.segment 0#32 = s.table.segment (s.reg b) ∧
      ∀ k, k ≠ 0#32 → t.table.segment k = s.table.segment k := by
  rcases execLoadProgram_cases h with ⟨hb, -⟩ | ⟨-, words, hw, rfl⟩ | ⟨-, -, rfl⟩
  · exact absurd hb h0
  · exact ⟨rfl, by rw [hw]; exact (SegTable.segment_insert _ _ _ _).trans (if_pos rfl), fun k hk =>
      (SegTable.segment_insert _ _ _ _).trans (if_neg hk)⟩
  · cases hr

/-- Tables that agree on a segment, under an id of each, agree on its cells. -/
theorem SegTable.cell_eq_of_segment_eq {p q : SegTable} {i j : Word} (h : p.segment i = q.segment j) (off : Word) :
    p.cell i off = q.cell j off := by
  unfold SegTable.cell; rw [h]

/-- Settles O31: the load reads the cell the store wrote. -/
theorem loadAfterStoreReturnsTheWord : Obligations.LoadAfterStoreReturnsTheWord := by
  intro a b c d e f s t _ h hr haddr
  obtain ⟨he, hf⟩ := Prod.mk.inj haddr
  have hcell : t.table.cell (t.reg e) (t.reg f) = some (s.reg c) := by
    rw [he, hf]; exact execSegmentStore_cell h hr
  exact writesRegister_of_setReg (execSegmentLoad_ok (SegTable.memRead_eq_ok.2 hcell))

/-- Settles O32: the cell at `(0, pc)` holds the stored word, or the source segment's word at the target. -/
theorem nextFetchSeesTheNewProgram : Obligations.NextFetchSeesTheNewProgram := by
  refine ⟨fun a b c s t _ h hr ha hb i hd => ?_, fun b c s t _ h hr h0 w i hw hd => ?_⟩
  · have hcell := execSegmentStore_cell h hr
    rw [ha, hb] at hcell
    exact step_of_cell hr hcell hd
  · obtain ⟨hpc, hprog, -⟩ := execLoadProgram_copy h hr h0
    have hcell : t.table.cell 0#32 t.pc = some w := by
      rw [hpc, SegTable.cell_eq_of_segment_eq hprog, hw]
    exact step_of_cell hr hcell hd

/-- Settles O33: the store's segment is not the other one, which it leaves as the copy made it. -/
theorem copiedProgramIsIndependent : Obligations.CopiedProgramIsIndependent := by
  intro b c a' b' c' s t u _ hcopy hr h0 hstore
  obtain ⟨-, hprog, hsource⟩ := execLoadProgram_copy hcopy hr h0
  refine ⟨fun ha => SegTable.cell_eq_of_segment_eq ?_, fun ha => SegTable.cell_eq_of_segment_eq ?_⟩
  · exact (execSegmentStore_segment_ne hstore (ha ▸ h0.symm)).trans hprog
  · exact (execSegmentStore_segment_ne hstore (ha ▸ h0)).trans (hsource _ h0)

end

end Sys2Proof.Machine
end

section
/-! PROOFS. The family of 30_encoding.md: the bit-field codec, unsigned by the bits an insertion
sets, signed by the balanced remainder that a two's-complement reading is. -/

namespace Sys2Proof.Machine

open Sys2Proof.Claims

variable {word value w : Container} {width lsb k : Nat} {h : width + lsb ≤ 64}

/-! ## The unsigned functions -/

/-- `fits_unsigned` as a bound (R91). -/
@[simp] theorem fitsUnsigned_iff {h : width ≤ 64} : fitsUnsigned value width h = true ↔ value.toNat < 2 ^ width := by
  simp [fitsUnsigned]

/-- Settles O1: each boundary is the bound, read at that width. -/
theorem fitsUnsignedIsBelowTwoToTheWidth : Obligations.FitsUnsignedIsBelowTwoToTheWidth := by
  refine ⟨fun v width h => fitsUnsigned_iff, fun v => ?_, fun v => fitsUnsigned_iff.2 v.isLt, fun width h _ => ?_⟩
  · rw [fitsUnsigned_iff, Nat.pow_zero, Nat.lt_one_iff]
    exact ⟨fun hv => BitVec.eq_of_toNat_eq hv, fun hv => congrArg BitVec.toNat hv⟩
  · have hpos : 0 < 2 ^ width := Nat.two_pow_pos width
    have hlt : 2 ^ width < 2 ^ 64 := Nat.pow_lt_pow_right (by decide) (by omega)
    refine ⟨?_, Bool.eq_false_iff.2 (mt fitsUnsigned_iff.1 ?_)⟩
    · rw [fitsUnsigned_iff, BitVec.toNat_ofNat, Nat.mod_eq_of_lt (by omega)]
      omega
    · rw [BitVec.toNat_ofNat, Nat.mod_eq_of_lt hlt]
      omega

/-- An extraction is below `2^width` (R93). -/
theorem getUnsigned_lt (h : width + lsb ≤ 64) : (getUnsigned word width lsb h).toNat < 2 ^ width := by
  rw [getUnsigned_toNat]
  exact Nat.mod_lt _ (Nat.two_pow_pos width)

/-- Settles O2: the extraction as a number and bit by bit; at width 0 only 0 is below the bound. -/
theorem getUnsignedReadsTheField : Obligations.GetUnsignedReadsTheField := by
  intro word width lsb h
  refine ⟨getUnsigned_toNat h, getUnsigned_lt h, getUnsigned_getLsbD h, ?_⟩
  rintro rfl
  exact BitVec.eq_of_toNat_eq (Nat.lt_one_iff.1 (getUnsigned_lt h))

/-- Settles O3: by whether the value fits. -/
theorem putUnsignedReplacesTheFieldOrFails : Obligations.PutUnsignedReplacesTheFieldOrFails := by
  intro word value width lsb h
  refine ⟨putUnsigned_overflow, fun hv => ?_⟩
  obtain ⟨w, hw⟩ := putUnsigned_fits hv
  exact ⟨w, hw, (putUnsigned_ok hw).2⟩

/-- What was inserted is extracted (R97). -/
theorem getUnsigned_of_putUnsigned (hw : putUnsigned word width lsb value h = .ok w) :
    getUnsigned w width lsb h = value := by
  obtain ⟨hv, hbits⟩ := putUnsigned_ok hw
  refine BitVec.eq_of_getLsbD_eq fun k _ => ?_
  rw [getUnsigned_getLsbD]
  by_cases hk : k < width
  · rw [hbits, if_pos (by omega), Nat.add_sub_cancel_left, decide_eq_true hk, Bool.true_and]
  · rw [getLsbD_of_toNat_lt hv (Nat.le_of_not_lt hk), decide_eq_false hk, Bool.false_and]

/-- Settles O4: a value that fits is inserted, extracted again, and leaves the bits outside the field. -/
theorem getAfterPutUnsignedIsTheValue : Obligations.GetAfterPutUnsignedIsTheValue := by
  intro word value width lsb h _ hfits
  obtain ⟨w, hw⟩ := putUnsigned_fits (word := word) (h := h) (fitsUnsigned_iff.1 hfits)
  refine ⟨w, hw, getUnsigned_of_putUnsigned hw, fun k hk => ?_⟩
  rw [(putUnsigned_ok hw).2, if_neg (by omega)]

/-! ## The signed functions -/

/-- `fits_signed` as the two's-complement range (R92). -/
theorem fitsSigned_succ_iff {h : k + 1 ≤ 64} :
    fitsSigned value (k + 1) h = true ↔ -(2 : Int) ^ k ≤ value.toInt ∧ value.toInt ≤ 2 ^ k - 1 := by
  simp [fitsSigned]

/-- A number of the two's-complement range of `k + 1` bits is its own balanced remainder. -/
theorem bmod_of_signedRange {x : Int} (hlo : -(2 : Int) ^ k ≤ x) (hhi : x < 2 ^ k) :
    x.bmod (2 ^ (k + 1)) = x := by
  have hpow : ((2 ^ (k + 1) : Nat) : Int) = 2 * 2 ^ k := by rw [Nat.pow_succ']; norm_cast
  exact Int.bmod_eq_of_le (by omega) (by omega)

/-- A `k + 1`-bit number read as two's complement, by its sign bit, is a balanced remainder (R94). -/
theorem signed_eq_bmod {f : Nat} (hf : f < 2 ^ (k + 1)) :
    (if 2 ^ k ≤ f then (f : Int) - 2 ^ (k + 1) else f) = (f : Int).bmod (2 ^ (k + 1)) := by
  have hpow : (2 : Nat) ^ (k + 1) = 2 * 2 ^ k := Nat.pow_succ'
  have hpowInt : (2 : Int) ^ (k + 1) = ((2 ^ (k + 1) : Nat) : Int) := by norm_cast
  have hmod : (f : Int) % (2 ^ (k + 1) : Nat) = f := Int.emod_eq_of_lt (by omega) (by omega)
  rw [Int.bmod_def, hmod, hpowInt]
  split <;> split <;> omega

/-- The field of `k + 1` bits read as two's complement (R94). -/
theorem getSigned_succ (h : k + 1 + lsb ≤ 64) : getSigned word (k + 1) lsb h =
    BitVec.ofInt 64 (((getUnsigned word (k + 1) lsb h).toNat : Int).bmod (2 ^ (k + 1))) :=
  congrArg (BitVec.ofInt 64) (signed_eq_bmod (getUnsigned_lt h))

/-- A balanced remainder of at most 64 bits is a 64-bit number. -/
theorem toInt_ofInt_bmod {x : Int} (hk : k < 64) :
    (BitVec.ofInt 64 (x.bmod (2 ^ (k + 1)))).toInt = x.bmod (2 ^ (k + 1)) := by
  have hpow : 2 ^ (k + 1) = 2 * 2 ^ k := Nat.pow_succ'
  have hle : 2 ^ k ≤ 2 ^ 63 := Nat.pow_le_pow_right (by decide) (by omega)
  have hlo := Int.le_bmod (x := x) (Nat.two_pow_pos (k + 1))
  have hhi := Int.bmod_lt (x := x) (Nat.two_pow_pos (k + 1))
  rw [BitVec.toInt_ofInt]
  exact Int.bmod_eq_of_le (by omega) (by omega)

/-- The signed and the unsigned reading of a container agree modulo `2^width`. -/
theorem toInt_emod_two_pow (hw : width ≤ 64) :
    value.toInt % ((2 ^ width : Nat) : Int) = (value.toNat % 2 ^ width : Nat) := by
  have hdvd : ((2 ^ width : Nat) : Int) ∣ (2 ^ 64 : Nat) := Int.natCast_dvd_natCast.2 (pow_dvd_pow 2 hw)
  rw [BitVec.toInt_eq_toNat_bmod, ← Int.emod_emod_of_dvd _ hdvd, Int.bmod_emod, Int.emod_emod_of_dvd _ hdvd,
    Int.natCast_mod]

/-- What `put_signed` inserts is the value modulo `2^width` (R96, 93 G3). -/
theorem signedField_toNat (hw : width ≤ 64) :
    (BitVec.ofInt 64 (value.toInt % 2 ^ width)).toNat = value.toNat % 2 ^ width := by
  have hpow : (2 : Int) ^ width = ((2 ^ width : Nat) : Int) := by norm_cast
  have hlt : value.toNat % 2 ^ width < 2 ^ 64 := Nat.lt_of_le_of_lt (Nat.mod_le _ _) value.isLt
  rw [hpow, toInt_emod_two_pow hw, BitVec.ofInt_natCast, BitVec.toNat_ofNat, Nat.mod_eq_of_lt hlt]

/-- `put_signed` is `put_unsigned` of the value modulo `2^width`, if the value fits (R96). -/
theorem putSigned_fits (hv : fitsSigned value width (Nat.le_of_add_right_le h) = true) :
    putSigned word width lsb value h = putUnsigned word width lsb (BitVec.ofInt 64 (value.toInt % 2 ^ width)) h :=
  if_pos hv

/-- A value that does not fit overflows (R96). -/
theorem putSigned_overflow (hv : fitsSigned value width (Nat.le_of_add_right_le h) = false) :
    putSigned word width lsb value h = .error .overflowError :=
  if_neg (Bool.eq_false_iff.1 hv)

/-- A value that fits is inserted: the field gets its low bits, the other bits are kept (R96). -/
theorem putSigned_ok (hv : fitsSigned value width (Nat.le_of_add_right_le h) = true) :
    ∃ w, putSigned word width lsb value h = .ok w ∧ ∀ k, w.getLsbD k =
      if lsb ≤ k ∧ k < lsb + width then value.getLsbD (k - lsb) else word.getLsbD k := by
  have hfield := signedField_toNat (value := value) (Nat.le_of_add_right_le h)
  have hlt : (BitVec.ofInt 64 (value.toInt % 2 ^ width)).toNat < 2 ^ width := by
    rw [hfield]; exact Nat.mod_lt _ (Nat.two_pow_pos width)
  obtain ⟨w, hw⟩ := putUnsigned_fits (word := word) (h := h) hlt
  refine ⟨w, (putSigned_fits hv).trans hw, fun k => ?_⟩
  rw [(putUnsigned_ok hw).2 k]
  split
  · next hin =>
    rw [BitVec.getLsbD, hfield, Nat.testBit_mod_two_pow, decide_eq_true (by omega), Bool.true_and, BitVec.getLsbD]
  · rfl

/-- What was inserted as a signed field of `k + 1` bits is extracted (R97). -/
theorem getSigned_of_putSigned {h : k + 1 + lsb ≤ 64}
    (hv : fitsSigned value (k + 1) (Nat.le_of_add_right_le h) = true)
    (hw : putSigned word (k + 1) lsb value h = .ok w) : getSigned w (k + 1) lsb h = value := by
  obtain ⟨hlo, hhi⟩ := fitsSigned_succ_iff.1 hv
  rw [putSigned_fits hv] at hw
  refine BitVec.eq_of_toInt_eq ?_
  rw [getSigned_succ, toInt_ofInt_bmod (by omega), getUnsigned_of_putUnsigned hw, signedField_toNat (by omega),
    ← toInt_emod_two_pow (by omega), Int.emod_bmod]
  exact bmod_of_signedRange hlo (by omega)

/-- Settles O5: the signed reading is a balanced remainder, which a value of the range is of itself. -/
theorem signedFieldsRoundTrip : Obligations.SignedFieldsRoundTrip := by
  intro word value width lsb h hpos
  obtain ⟨k, rfl⟩ := Nat.exists_eq_add_of_le' hpos
  refine ⟨fitsSigned_succ_iff, fun hv => ?_, ?_, putSigned_overflow⟩
  · obtain ⟨w, hw, hbits⟩ := putSigned_ok (word := word) hv
    exact ⟨w, hw, getSigned_of_putSigned hv hw, hbits⟩
  · rw [getSigned_succ, toInt_ofInt_bmod (by omega)]
    exact (signed_eq_bmod (getUnsigned_lt h)).symm

end Sys2Proof.Machine
end

section
/-! PROOFS. The family of 30_encoding.md, continued: the decoder by the number of the word, the two encoders as its
inverses, the bits that do not matter and the words that are no instruction. -/

namespace Sys2Proof.Machine

open Sys2Proof.Claims

variable {w v : Word} {a b c dest : Reg}

/-! ## The decoder by the number of the word -/

/-- The words of the three-register format with these fields (R98). -/
theorem decode_eq_threeRegister_iff {op : Fin 13} : decode w = .threeRegister op a b c ↔
    w.toNat / 2 ^ 28 = op.val ∧ w.toNat / 64 % 8 = a.val ∧ w.toNat / 8 % 8 = b.val ∧ w.toNat % 8 = c.val := by
  rcases Nat.lt_trichotomy (w.toNat / 2 ^ 28) 13 with hlt | heq | hgt
  · rw [decode_threeRegister hlt, Decoded.threeRegister.injEq, Fin.ext_iff, Fin.ext_iff, Fin.ext_iff, Fin.ext_iff,
      fieldA_val, fieldB_val, fieldC_val]
  · rw [decode_loadImmediate heq]
    exact ⟨nofun, fun ⟨hop, _⟩ => absurd (heq.symm.trans hop) op.isLt.ne'⟩
  · rw [decode_invalid hgt]
    exact ⟨nofun, fun ⟨hop, _⟩ => absurd (hop ▸ hgt) op.isLt.not_gt⟩

/-- The words of the load-immediate format with these fields (R99). -/
theorem decode_eq_loadImmediate_iff {value : BitVec 25} : decode w = .loadImmediate dest value ↔
    w.toNat / 2 ^ 28 = 13 ∧ w.toNat / 2 ^ 25 % 8 = dest.val ∧ w.toNat % 2 ^ 25 = value.toNat := by
  rcases Nat.lt_trichotomy (w.toNat / 2 ^ 28) 13 with hlt | heq | hgt
  · rw [decode_threeRegister hlt]
    exact ⟨nofun, fun ⟨hop, _⟩ => absurd hop hlt.ne⟩
  · rw [decode_loadImmediate heq, Decoded.loadImmediate.injEq, Fin.ext_iff, ← BitVec.toNat_inj, fieldDest_val,
      fieldValue_toNat, and_iff_right heq]
  · rw [decode_invalid hgt]
    exact ⟨nofun, fun ⟨hop, _⟩ => absurd hop hgt.ne'⟩

/-- A field of an instruction word, extracted from the codec's container (R90, R93). -/
theorem getUnsigned_zext64 {width lsb : Nat} (h : width + lsb ≤ 64) :
    (getUnsigned (zext64 w) width lsb h).toNat = w.toNat / 2 ^ lsb % 2 ^ width := by
  rw [getUnsigned_toNat, zext64_toNat]

/-- Settles O6: by the three ranges of the opcode, each field as a quotient and remainder of the word. -/
theorem decodeReadsTheFieldsOfTheTwoFormats : Obligations.DecodeReadsTheFieldsOfTheTwoFormats := by
  intro w
  have hw := w.isLt
  have hopcode : w.toNat / 2 ^ 28 % 2 ^ 4 = w.toNat / 2 ^ 28 := Nat.mod_eq_of_lt (by omega)
  simp only [getUnsigned_zext64, hopcode]
  refine ⟨fun h => ?_, fun h => ?_, fun h => ?_⟩
  · exact ⟨_, _, decode_loadImmediate h, fieldDest_val w, (fieldValue_toNat w).trans (by simp)⟩
  · exact ⟨_, decode_invalid h, opcodeField_toNat w⟩
  · exact ⟨_, _, _, _, decode_threeRegister (Nat.lt_succ_of_le h), rfl, fieldA_val w, fieldB_val w,
      (fieldC_val w).trans (by simp)⟩

/-! ## The encoders -/

/-- The encoding of three register fields is the number of R108. -/
theorem enc3_regBits (op : Fin 13) (a b c : Reg) :
    ∃ w, enc3 (BitVec.ofNat 64 op.val) (regBits a) (regBits b) (regBits c) = .ok w ∧
      w.toNat = op.val * 2 ^ 28 + a.val * 64 + b.val * 8 + c.val := by
  have hop : (BitVec.ofNat 64 op.val).toNat = op.val := by
    rw [BitVec.toNat_ofNat]; exact Nat.mod_eq_of_lt (by omega)
  have hreg : ∀ r : Reg, (regBits r).toNat < 8 := fun r => by rw [regBits_toNat]; exact r.isLt
  have h := enc3_ok (op := BitVec.ofNat 64 op.val) (by omega) (hreg a) (hreg b) (hreg c)
  rwa [hop, regBits_toNat, regBits_toNat, regBits_toNat] at h

/-- The encoding of three register fields decodes to them (R109). -/
theorem decode_enc3 (op : Fin 13) (a b c : Reg) :
    ∃ w, enc3 (BitVec.ofNat 64 op.val) (regBits a) (regBits b) (regBits c) = .ok w ∧
      decode w = .threeRegister op a b c := by
  obtain ⟨w, hw, hnum⟩ := enc3_regBits op a b c
  refine ⟨w, hw, decode_eq_threeRegister_iff.2 ?_⟩
  omega

/-- The encoding of a register and an immediate that fits decodes to them (R109). -/
theorem decode_encLI {value : Container} (dest : Reg) (hv : value.toNat < 2 ^ 25) :
    ∃ w, encLI (regBits dest) value = .ok w ∧ decode w = .loadImmediate dest (value.setWidth 25) := by
  have hdest := regBits_toNat dest
  obtain ⟨w, hw, hnum⟩ := encLI_ok (dest := regBits dest) (by omega) hv
  refine ⟨w, hw, decode_eq_loadImmediate_iff.2 ?_⟩
  rw [BitVec.toNat_setWidth]
  omega

/-- Clearing bits 27:9 of a word, as a sum of its opcode and its register fields. -/
theorem getLsbD_of_fields (h : v.toNat = 2 ^ 28 * (w.toNat / 2 ^ 28) + w.toNat % 2 ^ 9) (k : Nat) :
    v.getLsbD k = (w.getLsbD k && !decide (9 ≤ k ∧ k ≤ 27)) := by
  have hlt : w.toNat % 2 ^ 9 < 2 ^ 28 := Nat.lt_of_lt_of_le (Nat.mod_lt _ (by decide)) (by decide)
  rw [BitVec.getLsbD, h, Nat.testBit_two_pow_mul_add _ hlt]
  by_cases hk : k < 28
  · rw [if_pos hk, Nat.testBit_mod_two_pow, BitVec.getLsbD, Bool.and_comm, ← decide_not]
    congr 2
    exact propext (by omega)
  · rw [if_neg hk, Nat.testBit_div_two_pow, Nat.sub_add_cancel (by omega), decide_eq_false (by omega), Bool.not_false,
      Bool.and_true, BitVec.getLsbD]

/-- Settles O10: an encoding's number has the fields it was built of, and the number built of a word's fields is the
word without bits 27:9. -/
theorem decodeInvertsTheEncoders : Obligations.DecodeInvertsTheEncoders := by
  refine ⟨decode_enc3, fun dest value => ?_, fun w op a b c hdec => ?_⟩
  · have hv : (value.setWidth 64).toNat = value.toNat := BitVec.toNat_setWidth_of_le (by decide)
    obtain ⟨w, hw, hdec⟩ := decode_encLI (value := value.setWidth 64) dest (hv ▸ value.isLt)
    exact ⟨w, hw, by rw [hdec, BitVec.setWidth_setWidth_of_le _ (by decide), BitVec.setWidth_eq]⟩
  · obtain ⟨v, hv, hnum⟩ := enc3_regBits op a b c
    obtain ⟨hop, ha, hb, hc⟩ := decode_eq_threeRegister_iff.1 hdec
    exact ⟨v, hv, fun k _ => getLsbD_of_fields (by omega) k⟩

/-- A sequence of codec calls succeeds through its first call. -/
theorem bind_eq_ok {α β : Type} {x : Except CodecError α} {f : α → Except CodecError β} {y : β} :
    x >>= f = .ok y ↔ ∃ r, x = .ok r ∧ f r = .ok y := by
  cases x <;> simp [bind, Except.bind]

/-- A codec call that gives no word overflows: there is no other error. -/
theorem eq_overflowError {α : Type} {x : Except CodecError α} (h : ∀ y, x ≠ .ok y) :
    x = .error .overflowError := by
  cases x with
  | error e => cases e; rfl
  | ok y => exact absurd rfl (h y)

/-- `enc3` succeeds only on operands that fit their fields (R108). -/
theorem enc3_fits {op a b c : Container} (h : enc3 op a b c = .ok w) :
    op.toNat < 2 ^ 4 ∧ a.toNat < 2 ^ 3 ∧ b.toNat < 2 ^ 3 ∧ c.toNat < 2 ^ 3 := by
  obtain ⟨_, hop, h⟩ := bind_eq_ok.1 h
  obtain ⟨_, ha, h⟩ := bind_eq_ok.1 h
  obtain ⟨_, hb, h⟩ := bind_eq_ok.1 h
  obtain ⟨_, hc, -⟩ := bind_eq_ok.1 h
  exact ⟨(putUnsigned_ok hop).1, (putUnsigned_ok ha).1, (putUnsigned_ok hb).1, (putUnsigned_ok hc).1⟩

/-- `encLI` succeeds only on operands that fit their fields (R108). -/
theorem encLI_fits {dest value : Container} (h : encLI dest value = .ok w) :
    dest.toNat < 2 ^ 3 ∧ value.toNat < 2 ^ 25 := by
  obtain ⟨_, -, h⟩ := bind_eq_ok.1 h
  obtain ⟨_, hdest, h⟩ := bind_eq_ok.1 h
  obtain ⟨_, hvalue, -⟩ := bind_eq_ok.1 h
  exact ⟨(putUnsigned_ok hdest).1, (putUnsigned_ok hvalue).1⟩

/-- `encLI` overflows on an operand too wide for its field (R108). -/
theorem encLI_overflow {dest value : Container} (h : 8 ≤ dest.toNat ∨ 2 ^ 25 ≤ value.toNat) :
    encLI dest value = .error .overflowError :=
  eq_overflowError fun _ hok => by have := encLI_fits hok; omega

/-- Settles O9: the insertions add up where the operands fit, and the call of an operand that does not fit fails. -/
theorem encodersBuildTheWordOrOverflow : Obligations.EncodersBuildTheWordOrOverflow := by
  refine ⟨fun op a b c hop ha hb hc => ?_, fun dest value hd hv => ?_, fun op a b c h => ?_,
    fun dest value => encLI_overflow⟩
  · exact enc3_ok (by omega) (by omega) (by omega) (by omega)
  · exact encLI_ok (by omega) hv
  · exact eq_overflowError fun _ hok => by have := enc3_fits hok; omega

/-! ## Every instruction and its encoding -/

/-- The encoding of an opcode and three registers is the instruction the opcode map selects (R102, R109). -/
theorem decodeInstr_enc3 (op : Fin 13) (a b c : Reg) :
    ∃ w, enc3 (BitVec.ofNat 64 op.val) (regBits a) (regBits b) (regBits c) = .ok w ∧
      decodeInstr w = .ok (selectThreeRegister op a b c) := by
  obtain ⟨w, hw, hdec⟩ := decode_enc3 op a b c
  exact ⟨w, hw, by rw [decodeInstr, hdec, selectInstr]⟩

/-- A LoadImmediate whose immediate fits 25 bits is what its encoding decodes to (R103, R109). -/
theorem decodeInstr_encLI {value : Word} (dest : Reg) (hv : value.toNat < 2 ^ 25) :
    ∃ w, encLI (regBits dest) (zext64 value) = .ok w ∧ decodeInstr w = .ok (.loadImmediate dest value) := by
  obtain ⟨w, hw, hdec⟩ := decode_encLI (value := zext64 value) dest (by rwa [zext64_toNat])
  have hvalue : ((zext64 value).setWidth 25).setWidth 32 = value := by
    refine BitVec.eq_of_toNat_eq ?_
    rw [BitVec.toNat_setWidth_of_le (by decide), BitVec.toNat_setWidth, zext64_toNat, Nat.mod_eq_of_lt hv]
  exact ⟨w, hw, by rw [decodeInstr, hdec, selectInstr, hvalue]⟩

theorem immediateFits_loadImmediate {value : Word} :
    (Instr.loadImmediate dest value).immediateFits = true ↔ value.toNat < 2 ^ 25 := by
  simp [Instr.immediateFits]

/-- The opcode map selects no LoadImmediate, so that no immediate is there to fit. -/
theorem immediateFits_selectThreeRegister (op : Fin 13) :
    (selectThreeRegister op a b c).immediateFits = true := by
  fin_cases op <;> rfl

/-- The decoder gives only well-formed instructions (R103). -/
theorem wellFormed_of_decodeInstr {i : Instr} (h : decodeInstr w = .ok i) : i.WellFormed := by
  unfold decodeInstr at h
  cases hdec : decode w with
  | threeRegister op a b c =>
    rw [hdec] at h; cases h
    exact immediateFits_selectThreeRegister op
  | loadImmediate dest value =>
    rw [hdec] at h; cases h
    rw [Instr.WellFormed, immediateFits_loadImmediate, BitVec.toNat_setWidth_of_le (by decide)]
    exact value.isLt
  | invalid op => rw [hdec] at h; cases h

/-- A well-formed instruction is what its encoding decodes to (R109). -/
theorem decodeInstr_encode {i : Instr} (h : i.WellFormed) : ∃ w, encode i = .ok w ∧ decodeInstr w = .ok i := by
  cases i with
  | conditionalMove a b c => exact decodeInstr_enc3 0 a b c
  | segmentLoad a b c => exact decodeInstr_enc3 1 a b c
  | segmentStore a b c => exact decodeInstr_enc3 2 a b c
  | add a b c => exact decodeInstr_enc3 3 a b c
  | multiply a b c => exact decodeInstr_enc3 4 a b c
  | divide a b c => exact decodeInstr_enc3 5 a b c
  | nand a b c => exact decodeInstr_enc3 6 a b c
  | halt => exact decodeInstr_enc3 7 0 0 0
  | mapSegment b c => exact decodeInstr_enc3 8 0 b c
  | unmapSegment c => exact decodeInstr_enc3 9 0 0 c
  | output c => exact decodeInstr_enc3 10 0 0 c
  | input c => exact decodeInstr_enc3 11 0 0 c
  | loadProgram b c => exact decodeInstr_enc3 12 0 b c
  | loadImmediate dest value => exact decodeInstr_encLI dest (immediateFits_loadImmediate.1 h)

/-- An immediate of more than 25 bits, the one way to be ill-formed, has no encoding (R108). -/
theorem encode_illFormed {i : Instr} (h : ¬i.WellFormed) : encode i = .error .overflowError := by
  cases i with
  | loadImmediate dest value =>
    have hv : 2 ^ 25 ≤ (zext64 value).toNat := by
      rw [zext64_toNat]; exact Nat.le_of_not_lt (mt immediateFits_loadImmediate.2 h)
    exact encLI_overflow (.inr hv)
  | _ => exact absurd rfl h

/-- Settles O11: by the two formats' round trips, constructor by constructor. -/
theorem everyInstructionDecodesFromItsEncoding : Obligations.EveryInstructionDecodesFromItsEncoding :=
  ⟨fun _ => decodeInstr_encode, fun _ => encode_illFormed, fun _ _ => wellFormed_of_decodeInstr⟩

/-! ## The bits that do not matter -/

/-- Words that agree on the bits of a field agree on the field. -/
theorem extractLsb'_congr {lsb n : Nat} (h : ∀ k < n, w.getLsbD (lsb + k) = v.getLsbD (lsb + k)) :
    w.extractLsb' lsb n = v.extractLsb' lsb n := by
  refine BitVec.eq_of_getLsbD_eq fun k hk => ?_
  rw [BitVec.getLsbD_extractLsb', BitVec.getLsbD_extractLsb', h k hk]

/-- The opcode bits are used whatever the opcode (R104). -/
theorem opcode_mem_usedBits (op : Nat) : ∀ k < 4, 28 + k ∈ usedBits op := by
  unfold usedBits
  split <;> decide

/-- The opcode map depends on those register fields only whose bits the opcode uses (R102). -/
theorem selectThreeRegister_congr {a' b' c' : Reg} (op : Fin 13)
    (hA : (∀ k < 3, 6 + k ∈ usedBits op) → a = a') (hB : (∀ k < 3, 3 + k ∈ usedBits op) → b = b')
    (hC : (∀ k < 3, 0 + k ∈ usedBits op) → c = c') :
    selectThreeRegister op a b c = selectThreeRegister op a' b' c' := by
  match op with
  | 0 | 1 | 2 | 3 | 4 | 5 | 6 => rw [hA (by decide), hB (by decide), hC (by decide)]
  | 7 => rfl
  | 8 | 12 => rw [hB (by decide), hC (by decide)]; rfl
  | 9 | 10 | 11 => rw [hC (by decide)]; rfl

/-- A word of opcode 13 to 15 is used whole. -/
theorem usedBits_of_ge {op : Nat} (h : 13 ≤ op) : usedBits op = List.range 32 := by
  obtain ⟨k, rfl⟩ := Nat.exists_eq_add_of_le' h
  rfl

/-- A word of opcode 0 to 12 is the instruction the opcode map selects (R102). -/
theorem decodeInstr_threeRegister {op : Fin 13} (h : w.toNat / 2 ^ 28 = op.val) :
    decodeInstr w = .ok (selectThreeRegister op (fieldA w) (fieldB w) (fieldC w)) := by
  have hop : (⟨w.toNat / 2 ^ 28, h.trans_lt op.isLt⟩ : Fin 13) = op := Fin.ext h
  rw [decodeInstr, decode_threeRegister (h.trans_lt op.isLt), selectInstr, hop]

/-- Settles O7: the opcode and every field it uses are equal; opcodes 13 to 15 use the whole word. -/
theorem ignoredBitsDoNotMatter : Obligations.IgnoredBitsDoNotMatter := by
  intro w v h
  have hfield : ∀ lsb n, (∀ k < n, lsb + k ∈ usedBits (w.toNat / 2 ^ 28)) →
      w.extractLsb' lsb n = v.extractLsb' lsb n := fun lsb n hused =>
    extractLsb'_congr fun k hk => h _ (hused k hk)
  have hopcode : w.toNat / 2 ^ 28 = v.toNat / 2 ^ 28 := by
    rw [← opcodeField_toNat, ← opcodeField_toNat]
    exact congrArg BitVec.toNat (hfield 28 4 (opcode_mem_usedBits _))
  rcases Nat.lt_or_ge (w.toNat / 2 ^ 28) 13 with hlt | hge
  · rw [decodeInstr_threeRegister (op := ⟨_, hlt⟩) rfl, decodeInstr_threeRegister (op := ⟨_, hlt⟩) hopcode.symm]
    exact congrArg Except.ok (selectThreeRegister_congr ⟨_, hlt⟩
      (fun hused => congrArg BitVec.toFin (hfield 6 3 hused))
      (fun hused => congrArg BitVec.toFin (hfield 3 3 hused))
      (fun hused => congrArg BitVec.toFin (hfield 0 3 hused)))
  · have hwv : w = v := BitVec.eq_of_getLsbD_eq fun k hk =>
      h k (usedBits_of_ge hge ▸ List.mem_range.2 hk)
    rw [hwv]

/-! ## The words that are no instruction -/

/-- The faults an instruction can raise, each on its condition (R240). `InvalidOpcode` is not among them: the cycle
raises it. -/
inductive ExecRaises (s : State) : Instr → FatalFault → Prop where
  | loadUnmapped (a b c : Reg) (h : s.table.segment (s.reg b) = none) :
      ExecRaises s (.segmentLoad a b c) (.unmappedAccess (s.reg b))
  | loadOutOfBounds (a b c : Reg) {n : Nat} (hn : s.table.len (s.reg b) = some n) (h : n ≤ (s.reg c).toNat) :
      ExecRaises s (.segmentLoad a b c) (.outOfBounds (s.reg b) (s.reg c))
  | storeUnmapped (a b c : Reg) (h : s.table.segment (s.reg a) = none) :
      ExecRaises s (.segmentStore a b c) (.unmappedAccess (s.reg a))
  | storeOutOfBounds (a b c : Reg) {n : Nat} (hn : s.table.len (s.reg a) = some n) (h : n ≤ (s.reg b).toNat) :
      ExecRaises s (.segmentStore a b c) (.outOfBounds (s.reg a) (s.reg b))
  | divideByZero (a b c : Reg) (h : s.reg c = 0#32) : ExecRaises s (.divide a b c) .divideByZero
  | idsExhausted (b c : Reg) (hf : s.table.free = []) (hn : 2 ^ 32 ≤ s.table.nextId) :
      ExecRaises s (.mapSegment b c) .segmentIdExhausted
  | unmapZero (c : Reg) (h : s.reg c = 0#32) : ExecRaises s (.unmapSegment c) .unmapSegmentZero
  | unmapUnmapped (c : Reg) (h0 : s.reg c ≠ 0#32) (h : s.table.segment (s.reg c) = none) :
      ExecRaises s (.unmapSegment c) (.unmappedAccess (s.reg c))
  | outputRange (c : Reg) (hs : s.reg c ≠ sentinel) (h : 256 ≤ (s.reg c).toNat) :
      ExecRaises s (.output c) (.outputRange (s.reg c))
  | programUnmapped (b c : Reg) (h0 : s.reg b ≠ 0#32) (h : s.table.segment (s.reg b) = none) :
      ExecRaises s (.loadProgram b c) (.unmappedAccess (s.reg b))

section
variable {s t : State} {i : Instr} {f : FatalFault}

/-- An instruction that leaves a `Running` state `Faulted` raised one of its faults (R240). -/
theorem execRaises_of_faulted (hr : s.run = .running) (h : exec i s = .next t) (hf : t.run = .faulted f) :
    ExecRaises s i f := by
  have hkept : t.run ≠ s.run := fun e => by rw [e, hr] at hf; cases hf
  cases i with
  | conditionalMove a b c =>
    rcases execConditionalMove_cases h with ⟨-, rfl⟩ | ⟨-, rfl⟩ <;> exact absurd rfl hkept
  | segmentLoad a b c =>
    rcases execSegmentLoad_cases h with ⟨v, -, rfl⟩ | ⟨hu, rfl⟩ | ⟨n, hn, hle, rfl⟩
    · exact absurd rfl hkept
    · cases hf; exact .loadUnmapped a b c hu
    · cases hf; exact .loadOutOfBounds a b c hn hle
  | segmentStore a b c =>
    rcases execSegmentStore_cases h with ⟨words, -, -, rfl⟩ | ⟨hu, rfl⟩ | ⟨n, hn, hle, rfl⟩
    · exact absurd rfl hkept
    · cases hf; exact .storeUnmapped a b c hu
    · cases hf; exact .storeOutOfBounds a b c hn hle
  | divide a b c =>
    rcases execDivide_cases h with ⟨-, rfl⟩ | ⟨hc, rfl⟩
    · exact absurd rfl hkept
    · cases hf; exact .divideByZero a b c hc
  | mapSegment b c =>
    rcases execMapSegment_cases h with ⟨id, tbl, -, -, rfl⟩ | ⟨hfree, hn, rfl⟩
    · exact absurd rfl hkept
    · cases hf; exact .idsExhausted b c hfree hn
  | unmapSegment c =>
    rcases execUnmapSegment_cases h with ⟨-, -, rfl⟩ | ⟨h0, rfl⟩ | ⟨h0, hu, rfl⟩
    · exact absurd rfl hkept
    · cases hf; exact .unmapZero c h0
    · cases hf; exact .unmapUnmapped c h0 hu
  | output c =>
    rcases execOutput_cases h with ⟨-, rfl⟩ | ⟨-, rfl⟩ | ⟨hs, hle, rfl⟩
    · exact absurd rfl hkept
    · exact absurd rfl hkept
    · cases hf; exact .outputRange c hs hle
  | input c =>
    rcases execInput_cases h with ⟨byte, -, rfl⟩ | ⟨-, rfl⟩ <;> exact absurd rfl hkept
  | loadProgram b c =>
    rcases execLoadProgram_cases h with ⟨-, rfl⟩ | ⟨-, words, -, rfl⟩ | ⟨h0, hu, rfl⟩
    · exact absurd rfl hkept
    · exact absurd rfl hkept
    · cases hf; exact .programUnmapped b c h0 hu
  | add | multiply | nand | loadImmediate => cases h; exact absurd rfl hkept
  | halt => cases h; cases hf

/-- The words of opcode 14 and 15 as a range (R105). -/
theorem invalidOpcode_range : 14 ≤ w.toNat / 2 ^ 28 ↔ 0xE0000000 ≤ w.toNat := by omega

/-- The decoder rejects exactly opcodes 14 and 15 (R105). -/
theorem decodeInstr_eq_error_iff : (∃ e, decodeInstr w = .error e) ↔ 0xE0000000 ≤ w.toNat := by
  rw [← invalidOpcode_range]
  refine ⟨fun ⟨e, he⟩ => ?_, fun h => ⟨_, decodeInstr_error h⟩⟩
  by_contra hlt
  obtain ⟨i, hi⟩ := decodeInstr_ok (Nat.lt_of_not_le hlt)
  rw [hi] at he; cases he

/-- Every other word is an instruction (R105). -/
theorem decodeInstr_eq_ok_iff : (∃ i, decodeInstr w = .ok i) ↔ w.toNat < 0xE0000000 := by
  refine ⟨fun ⟨i, hi⟩ => ?_, fun h => decodeInstr_ok (by omega)⟩
  by_contra hge
  obtain ⟨e, he⟩ := decodeInstr_eq_error_iff.2 (Nat.le_of_not_lt hge)
  rw [hi] at he; cases he

/-- A fetched word that is no instruction raises `InvalidOpcode` (R135). -/
theorem step_of_invalid_cell {e : DecodeError} (hr : s.run = .running) (hc : s.table.cell 0#32 s.pc = some w)
    (hd : decodeInstr w = .error e) : step s = raise (.invalidOpcode w) s := by
  rw [step_of_running hr, cycle_of_fetch (State.fetch_word.2 hc), hd]

/-- Nothing but a fetched word that is no instruction raises `InvalidOpcode`, and it records that word (R105). -/
theorem cell_of_step_invalidOpcode (hr : s.run = .running) (h : step s = .next t)
    (hf : t.run = .faulted (.invalidOpcode w)) :
    s.table.cell 0#32 s.pc = some w ∧ ∃ e, decodeInstr w = .error e := by
  rcases step_running_cases hr with ⟨-, hs⟩ | ⟨-, hs⟩ | ⟨w', e, hc, hd, hs⟩ | ⟨w', i, -, -, hs⟩ <;> rw [hs] at h
  · cases h
  · cases h; cases hf
  · cases h; cases hf; exact ⟨hc, e, hd⟩
  · nomatch execRaises_of_faulted hr h hf

/-- Settles O8: opcodes 14 and 15 by the decoder's cases, and the fault by the cases of a step. -/
theorem onlyOpcodes14And15AreInvalid : Obligations.OnlyOpcodes14And15AreInvalid := by
  refine ⟨fun w => ?_, fun w => decodeInstr_eq_ok_iff, fun s w hr => ⟨?_, ?_⟩⟩
  · exact ⟨fun ⟨_, h⟩ => decodeInstr_eq_error_iff.1 ⟨_, h⟩,
      fun h => ⟨_, decodeInstr_error (invalidOpcode_range.2 h)⟩⟩
  · rintro ⟨t, h, hf⟩
    obtain ⟨hc, he⟩ := cell_of_step_invalidOpcode hr h hf
    exact ⟨hc, decodeInstr_eq_error_iff.1 he⟩
  · rintro ⟨hc, hw⟩
    obtain ⟨e, he⟩ := decodeInstr_eq_error_iff.2 hw
    exact ⟨_, step_of_invalid_cell hr hc he, rfl⟩

/-! ## The idioms -/

/-- An answer that is a new `pc` and nothing else. -/
theorem onlyMovesPc_of_setPc {target : Word} (h : exec i s = .next (s.setPc target)) : OnlyMovesPc i target s :=
  ⟨_, h, rfl, rfl, fun _ => rfl, ⟨⟨fun _ _ => rfl, fun _ => rfl⟩, rfl, rfl⟩, rfl, rfl, rfl⟩

/-- LoadProgram with `x[b] = 0` is a jump (R57, R202). -/
theorem execLoadProgram_jump (h : s.reg b = 0#32) : exec (.loadProgram b c) s = .next (s.setPc (s.reg c)) :=
  execLoadProgram_ok (SegTable.segReplaceProgram_ok.2 (.inl ⟨h, rfl⟩))

/-- A register written with its own value is no change. -/
@[simp] theorem State.setReg_reg_self (s : State) (r : Reg) : s.setReg r (s.reg r) = s := by
  simp [State.setReg, State.reg]

/-- Settles O30: the jump copies nothing, and the conditional move decides what register the jump reads. -/
theorem idiomsOfTheInstructionSet : Obligations.IdiomsOfTheInstructionSet := by
  refine ⟨fun z t s hz => onlyMovesPc_of_setPc (execLoadProgram_jump hz), fun a z s hz => ?_, fun a c s => ?_,
    fun t u c z s hz htz => ?_⟩
  · have hones : aluNand (s.reg z) (s.reg z) = 0xFFFFFFFF#32 := by rw [hz]; rfl
    exact hones ▸ writesRegister_of_setReg execNand_eq
  · by_cases hc : s.reg c = 0#32
    · exact onlyMovesPc_of_setPc (execConditionalMove_keep hc)
    · have hmove := execConditionalMove_move (a := a) (b := a) hc
      rw [State.setReg_reg_self] at hmove
      exact onlyMovesPc_of_setPc hmove
  · by_cases hc : s.reg c = 0#32
    · refine ⟨_, _, execConditionalMove_keep hc, execLoadProgram_jump hz, ?_⟩
      rw [if_neg (not_not_intro hc)]
      rfl
    · have hz' : (s.setReg t (s.reg u)).advance.reg z = 0#32 := by
        rw [State.advance_reg, State.reg_setReg_ne _ _ _ _ htz.symm, hz]
      refine ⟨_, _, execConditionalMove_move hc, execLoadProgram_jump hz', ?_⟩
      rw [if_pos hc]
      exact State.reg_setReg_self _ _ _

end

end Sys2Proof.Machine
end

section
/-! PROOFS. The family of 40_sequencer.md: what a step from `Running` is, by what the fetch finds, and how a run ends.
`CycleFaults`, the statements' condition of a fault, is tied to `ExecRaises`, the instructions' own. -/

namespace Sys2Proof.Machine

open Sys2Proof.Claims

variable {s t : State} {i : Instr} {f : FatalFault} {w : Word}

/-! ## One step, by what the fetch finds -/

/-- Changing the run state changes no register and nothing of the table and the streams (R132, R241). -/
theorem setRun_keeps (s : State) (r : RunState) :
    RegistersKept s (s.setRun r) ∧ TableKept s (s.setRun r) ∧ StreamsKept s (s.setRun r) :=
  ⟨fun _ => rfl, ⟨⟨fun _ _ => rfl, fun _ => rfl⟩, rfl, rfl⟩, rfl, rfl, rfl⟩

/-- Settles O37: the fetch finds the cell, and the cycle has nothing around the instruction. -/
theorem stepRunsTheDecodedInstruction : Obligations.StepRunsTheDecodedInstruction :=
  fun _ _ _ hr hc hd => step_of_cell hr hc hd

/-- A step from `Running` at or past the end of segment 0 (R132). -/
theorem step_of_end (hr : s.run = .running) (h : ∃ n, s.table.len 0#32 = some n ∧ n ≤ s.pc.toNat) :
    step s = .next (s.setRun .ended) := by
  rw [step_of_running hr, cycle, State.fetch_end.2 h]

/-- Settles O38: the end-of-program test comes first and changes the run state alone. -/
theorem endOfProgramEndsTheRun : Obligations.EndOfProgramEndsTheRun :=
  fun s n hr hn hle => ⟨_, step_of_end hr ⟨n, hn, hle⟩, rfl, rfl, rfl, setRun_keeps s .ended⟩

/-- Settles O39: the decoder rejects the word, and raising changes the run state alone. -/
theorem invalidOpcodeFaultsAtTheWord : Obligations.InvalidOpcodeFaultsAtTheWord :=
  fun s _ hr hc hw => ⟨_, step_of_invalid_cell hr hc (decodeInstr_error hw), rfl, rfl, setRun_keeps s _⟩

/-! ## The faults of a cycle -/

/-- An instruction raises a fault whose condition holds (R240). -/
theorem ExecRaises.exec_eq (h : ExecRaises s i f) : exec i s = raise f s := by
  cases h with
  | loadUnmapped a b c hu => exact execSegmentLoad_error (SegTable.memRead_unmapped hu)
  | loadOutOfBounds a b c hn hle => exact execSegmentLoad_error (SegTable.memRead_outOfBounds hn hle)
  | storeUnmapped a b c hu => exact execSegmentStore_error (SegTable.memWrite_unmapped hu)
  | storeOutOfBounds a b c hn hle => exact execSegmentStore_error (SegTable.memWrite_outOfBounds hn hle)
  | divideByZero a b c hc => exact execDivide_zero (aluDiv_zero hc)
  | idsExhausted b c hf hn => exact execMapSegment_error (SegTable.segAlloc_error.2 ⟨rfl, hf, hn⟩)
  | unmapZero c h0 => exact execUnmapSegment_error (SegTable.segFree_error.2 (.inl ⟨h0, rfl⟩))
  | unmapUnmapped c h0 hu => exact execUnmapSegment_error (SegTable.segFree_error.2 (.inr ⟨h0, hu, rfl⟩))
  | outputRange c hs hle => exact execOutput_range hs hle
  | programUnmapped b c h0 hu => exact execLoadProgram_error (SegTable.segReplaceProgram_error.2 ⟨h0, hu, rfl⟩)

/-- The values Output has no byte for and that are not the sentinel (R220). -/
theorem outputRange_iff {v : Word} : v ≠ sentinel ∧ 256 ≤ v.toNat ↔ 256 ≤ v.toNat ∧ v.toNat ≤ 0xFFFFFFFE := by
  have hlt := v.isLt
  have hsentinel : v = sentinel ↔ v.toNat = 0xFFFFFFFF := (BitVec.toNat_inj (y := sentinel)).symm
  rw [Ne, hsentinel]
  omega

/-- A fault of the instruction at `(0, pc)` is a fault of the cycle. -/
theorem ExecRaises.cycleFaults (h : s.Inv) (hi : Fetches s i) (hf : ExecRaises s i f) : CycleFaults s f := by
  cases hf with
  | loadUnmapped a b c hu => exact ⟨hu, .inl ⟨a, b, c, hi, rfl⟩⟩
  | loadOutOfBounds a b c hn hle => exact ⟨⟨_, hn, hle⟩, .inl ⟨a, b, c, hi, rfl, rfl⟩⟩
  | storeUnmapped a b c hu => exact ⟨hu, .inr (.inl ⟨a, b, c, hi, rfl⟩)⟩
  | storeOutOfBounds a b c hn hle => exact ⟨⟨_, hn, hle⟩, .inr ⟨a, b, c, hi, rfl, rfl⟩⟩
  | divideByZero a b c hc => exact ⟨a, b, c, hi, hc⟩
  | idsExhausted b c hfree hn => exact ⟨⟨hfree, Nat.le_antisymm h.nextIdRange.2 hn⟩, b, c, hi⟩
  | unmapZero c h0 => exact ⟨c, hi, h0⟩
  | unmapUnmapped c h0 hu => exact ⟨hu, .inr (.inr (.inl ⟨c, hi, rfl, h0⟩))⟩
  | outputRange c hs hle => exact ⟨outputRange_iff.1 ⟨hs, hle⟩, c, hi, rfl⟩
  | programUnmapped b c h0 hu => exact ⟨hu, .inr (.inr (.inr ⟨b, c, hi, rfl, h0⟩))⟩

/-- A fault of the cycle is `InvalidOpcode` of the fetched word, or a fault of the instruction at `(0, pc)`. -/
theorem cycleFaults_cases (h : CycleFaults s f) :
    (∃ w, f = .invalidOpcode w ∧ s.table.cell 0#32 s.pc = some w ∧ 14 ≤ w.toNat / 2 ^ 28) ∨
      ∃ i, Fetches s i ∧ ExecRaises s i f := by
  cases f with
  | invalidOpcode w => exact .inl ⟨w, rfl, h⟩
  | unmappedAccess id =>
    obtain ⟨hu, ⟨a, b, c, hi, rfl⟩ | ⟨a, b, c, hi, rfl⟩ | ⟨c, hi, rfl, h0⟩ | ⟨b, c, hi, rfl, h0⟩⟩ := h
    · exact .inr ⟨_, hi, .loadUnmapped a b c hu⟩
    · exact .inr ⟨_, hi, .storeUnmapped a b c hu⟩
    · exact .inr ⟨_, hi, .unmapUnmapped c h0 hu⟩
    · exact .inr ⟨_, hi, .programUnmapped b c h0 hu⟩
  | outOfBounds id off =>
    obtain ⟨⟨n, hn, hle⟩, ⟨a, b, c, hi, rfl, rfl⟩ | ⟨a, b, c, hi, rfl, rfl⟩⟩ := h
    · exact .inr ⟨_, hi, .loadOutOfBounds a b c hn hle⟩
    · exact .inr ⟨_, hi, .storeOutOfBounds a b c hn hle⟩
  | divideByZero =>
    obtain ⟨a, b, c, hi, hc⟩ := h
    exact .inr ⟨_, hi, .divideByZero a b c hc⟩
  | outputRange v =>
    obtain ⟨hv, c, hi, rfl⟩ := h
    obtain ⟨hs, hle⟩ := outputRange_iff.2 hv
    exact .inr ⟨_, hi, .outputRange c hs hle⟩
  | unmapSegmentZero =>
    obtain ⟨c, hi, h0⟩ := h
    exact .inr ⟨_, hi, .unmapZero c h0⟩
  | segmentIdExhausted =>
    obtain ⟨⟨hfree, hn⟩, b, c, hi⟩ := h
    exact .inr ⟨_, hi, .idsExhausted b c hfree hn.ge⟩

/-- A step raises the fault whose condition holds (R240). -/
theorem step_of_cycleFaults (hr : s.run = .running) (h : CycleFaults s f) : step s = raise f s := by
  rcases cycleFaults_cases h with ⟨w, rfl, hc, hw⟩ | ⟨i, ⟨w, hc, hd⟩, hraises⟩
  · exact step_of_invalid_cell hr hc (decodeInstr_error hw)
  · rw [step_of_cell hr hc hd, hraises.exec_eq]

/-- The condition of the fault that a step raised holds (R240). -/
theorem cycleFaults_of_step (h : s.Inv) (hr : s.run = .running) (hs : step s = .next t)
    (hf : t.run = .faulted f) : CycleFaults s f := by
  rcases step_running_cases hr with ⟨-, hs'⟩ | ⟨-, hs'⟩ | ⟨w, e, hc, hd, hs'⟩ | ⟨w, i, hc, hd, hs'⟩ <;>
    rw [hs'] at hs
  · cases hs
  · cases hs; cases hf
  · cases hs; cases hf
    exact ⟨hc, invalidOpcode_range.2 (decodeInstr_eq_error_iff.1 ⟨e, hd⟩)⟩
  · exact (execRaises_of_faulted hr hs hf).cycleFaults h ⟨w, hc, hd⟩

/-- A completed step from a `Running` state of the invariants is `Faulted` with exactly the fault whose condition
holds (R240). -/
theorem step_faulted_iff (h : s.Inv) (hr : s.run = .running) (hs : step s = .next t) :
    t.run = .faulted f ↔ CycleFaults s f := by
  refine ⟨cycleFaults_of_step h hr hs, fun hf => ?_⟩
  rw [step_of_cycleFaults hr hf] at hs
  cases hs; rfl

/-! ## The endings of a run -/

/-- The opcode map selects Halt for opcode 7 alone (R102). -/
theorem selectThreeRegister_eq_halt_iff {op : Fin 13} {a b c : Reg} :
    selectThreeRegister op a b c = .halt ↔ op = 7 := by
  fin_cases op <;> simp [selectThreeRegister]

/-- The words of Halt are those of opcode 7 (R102). -/
theorem decodeInstr_eq_halt_iff : decodeInstr w = .ok .halt ↔ w.toNat / 2 ^ 28 = 7 := by
  rcases Nat.lt_trichotomy (w.toNat / 2 ^ 28) 13 with hlt | heq | hgt
  · rw [decodeInstr_threeRegister (op := ⟨_, hlt⟩) rfl, Except.ok.injEq, selectThreeRegister_eq_halt_iff, Fin.ext_iff]
    rfl
  · rw [decodeInstr, decode_loadImmediate heq, selectInstr]
    exact ⟨nofun, fun h => by omega⟩
  · rw [decodeInstr_error hgt]
    exact ⟨nofun, fun h => by omega⟩

/-- An instruction faults, or is Halt and halts, or keeps the run state (R26). -/
theorem ExecEffect.run_cases (he : ExecEffect s i t) :
    (∃ f, t.run = .faulted f) ∨ (i = .halt ∧ t.run = .halted) ∨ (i ≠ .halt ∧ t.run = s.run) := by
  cases he with
  | faulted f => exact .inl ⟨f, rfl⟩
  | wrote _ _ hi | skipped hi => exact .inr (.inr ⟨hi.1, rfl⟩)
  | stored | mapped | unmapped | jumped | copied | emitted | consumed => exact .inr (.inr ⟨nofun, rfl⟩)
  | halted => exact .inr (.inl ⟨rfl, rfl⟩)

/-- The run states a cycle can leave, each with what it tells of the fetch (R138). -/
inductive RunAfterCycle (s : State) : RunState → Prop where
  /-- Nothing was left to fetch (R132). -/
  | ended (hend : ∃ n, s.table.len 0#32 = some n ∧ n ≤ s.pc.toNat) : RunAfterCycle s .ended
  /-- A fault was raised (R240). -/
  | faulted (f : FatalFault) : RunAfterCycle s (.faulted f)
  /-- Halt was run (R200). -/
  | halted (hi : Fetches s .halt) : RunAfterCycle s .halted
  /-- Another instruction was run. -/
  | goesOn (hi : ∃ i, Fetches s i ∧ i ≠ .halt) : RunAfterCycle s .running

/-- Every completed step from `Running` leaves one of these run states (R138). -/
theorem step_runAfterCycle (hr : s.run = .running) (hs : step s = .next t) : RunAfterCycle s t.run := by
  rcases step_running_cases hr with ⟨-, hs'⟩ | ⟨hend, hs'⟩ | ⟨w, e, -, -, hs'⟩ | ⟨w, i, hc, hd, hs'⟩ <;>
    rw [hs'] at hs
  · cases hs
  · cases hs; exact .ended hend
  · cases hs; exact .faulted _
  · rcases (exec_effect hs).run_cases with ⟨f, hrun⟩ | ⟨rfl, hrun⟩ | ⟨hne, hrun⟩
    · rw [hrun]; exact .faulted f
    · rw [hrun]; exact .halted ⟨w, hc, hd⟩
    · rw [hrun, hr]; exact .goesOn ⟨i, ⟨w, hc, hd⟩, hne⟩

/-- A step halts exactly at an instruction word of opcode 7 (R138, R200). -/
theorem step_halted_iff (hr : s.run = .running) (hs : step s = .next t) :
    t.run = .halted ↔ ∃ w, s.table.cell 0#32 s.pc = some w ∧ w.toNat / 2 ^ 28 = 7 := by
  refine ⟨fun ht => ?_, fun ⟨w, hc, hw⟩ => ?_⟩
  · obtain ⟨w, hc, hd⟩ : Fetches s .halt := match ht ▸ step_runAfterCycle hr hs with | .halted hi => hi
    exact ⟨w, hc, decodeInstr_eq_halt_iff.1 hd⟩
  · rw [step_of_cell hr hc (decodeInstr_eq_halt_iff.2 hw), execHalt_eq] at hs
    cases hs; rfl

/-- A step ends the run exactly at or past the end of segment 0 (R132, R138). -/
theorem step_ended_iff (hr : s.run = .running) (hs : step s = .next t) :
    t.run = .ended ↔ ∃ n, s.table.len 0#32 = some n ∧ n ≤ s.pc.toNat := by
  refine ⟨fun ht => ?_, fun hend => ?_⟩
  · exact match ht ▸ step_runAfterCycle hr hs with | .ended hend => hend
  · rw [step_of_end hr hend] at hs
    cases hs; rfl

/-- A run goes on exactly after an instruction other than Halt that no fault stops (R138). -/
theorem step_running_iff (h : s.Inv) (hr : s.run = .running) (hs : step s = .next t) :
    t.run = .running ↔ (∃ i, Fetches s i ∧ i ≠ .halt) ∧ ¬∃ f, CycleFaults s f := by
  refine ⟨fun ht => ⟨?_, fun ⟨f, hf⟩ => ?_⟩, fun ⟨⟨i, ⟨w, hc, hd⟩, hne⟩, hnf⟩ => ?_⟩
  · exact match ht ▸ step_runAfterCycle hr hs with | .goesOn hi => hi
  · have hrun := (step_faulted_iff h hr hs).2 hf
    rw [ht] at hrun; cases hrun
  · rcases (exec_effect (step_of_cell hr hc hd ▸ hs)).run_cases with ⟨f, hrun⟩ | ⟨hhalt, -⟩ | ⟨-, hrun⟩
    · exact absurd ⟨f, (step_faulted_iff h hr hs).1 hrun⟩ hnf
    · exact absurd hhalt hne
    · exact hrun.trans hr

/-- Settles O42: each run state after the step by its own condition. -/
theorem runEndsInExactlyThreeWays : Obligations.RunEndsInExactlyThreeWays := fun _ _ h hr hs =>
  ⟨step_halted_iff hr hs, step_ended_iff hr hs, exists_congr fun _ => step_faulted_iff h hr hs,
    step_running_iff h hr hs⟩

/-! ## Whole runs -/

/-- Any number of steps from a state of the invariants answers a state (R131, R133). -/
theorem neverStops_of_inv (h : s.Inv) : neverStops s := by
  intro k
  induction k generalizing s with
  | zero => exact ⟨s, runsFor_zero.2 rfl⟩
  | succ k ih =>
    obtain ⟨u, hu, hinv⟩ := everyStepKeepsTheInvariants s h
    obtain ⟨t, ht⟩ := ih hinv
    exact ⟨t, runsFor_succ.2 ⟨u, hu, ht⟩⟩

/-- A run keeps the invariants. -/
theorem runsFor_keeps_inv {k : Nat} (h : s.Inv) (hk : runsFor k s t) : t.Inv := by
  induction k generalizing s with
  | zero => rw [runsFor_zero.1 hk]; exact h
  | succ k ih =>
    obtain ⟨u, hu, hrest⟩ := runsFor_succ.1 hk
    exact ih (step_keeps_inv h hu) hrest

/-- A binary the loader accepts is a program of a legal length (R7, R283). -/
theorem length_of_loadBinary {bytes : List Byte} {prog : List Word} (h : loadBinary bytes = some prog) :
    prog.length < 2 ^ 32 := by
  unfold loadBinary at h
  split at h
  · split at h
    · next hlt => cases h; exact hlt
    · cases h
  · cases h

/-- A state a boot gives meets the invariants (R32, R280). -/
theorem inv_of_boot {bytes input : List Byte} (h : boot bytes input = some s) : s.Inv := by
  obtain ⟨prog, hprog, rfl⟩ := Option.map_eq_some_iff.1 h
  exact invariantsHoldAfterReset.2 prog input (length_of_loadBinary hprog)

/-- Settles O54: the invariants hold after boot, and a run from a state of the invariants keeps them. -/
theorem everyRunFromBootNeverStops : Obligations.EveryRunFromBootNeverStops := fun _ _ _ hboot =>
  ⟨neverStops_of_inv (inv_of_boot hboot), fun _ _ => runsFor_keeps_inv (inv_of_boot hboot)⟩

/-! ## A word placed for the next fetch -/

/-- A placed word is at its index: the program was lengthened to reach it. -/
theorem getElem?_placeWord (prog : List Word) (k : Nat) (w : Word) : (placeWord prog k w)[k]? = some w := by
  refine List.getElem?_set_self ?_
  rw [List.length_append, List.length_replicate]
  omega

/-- The word placed is what the next cycle fetches (R133). -/
theorem cell_loadAtPc (s : State) (w : Word) : (loadAtPc s w).table.cell 0#32 (loadAtPc s w).pc = some w := by
  rw [loadAtPc, State.setRun_table, State.setTable_table, SegTable.cell_insert, if_pos rfl]
  exact getElem?_placeWord _ _ _

/-- Placing a word changes no segment but the program. -/
theorem segment_loadAtPc_ne (s : State) (w : Word) {k : Word} (hk : k ≠ 0#32) :
    (loadAtPc s w).table.segment k = s.table.segment k :=
  (SegTable.segment_insert _ _ _ _).trans (if_neg hk)

/-- A row of the opcode table of 32 bits is its word. -/
theorem withFetchWord_toNat (s : State) (w : Word) : s.withFetchWord 32 w.toNat = loadAtPc s w := by
  rw [State.withFetchWord, tableWord, Nat.mod_eq_of_lt w.isLt, BitVec.ofNat_toNat, BitVec.setWidth_eq]

/-- Settles O55: the fetch finds the placed word in a `Running` state, and no other segment changed. -/
theorem placedWordIsRunNext : Obligations.PlacedWordIsRunNext := by
  intro s w i hd
  rw [withFetchWord_toNat]
  refine ⟨step_of_cell rfl (cell_loadAtPc s w) hd, rfl, fun _ => rfl, ⟨rfl, rfl, rfl⟩, fun k hk => ?_⟩
  have hseg := segment_loadAtPc_ne s w hk
  exact ⟨SegTable.len_congr hseg, SegTable.cell_congr hseg⟩

end Sys2Proof.Machine
end

section
/-! PROOFS. The family of 41_move_immediate.md: ConditionalMove by its condition, and LoadImmediate by the 25-bit field
its word holds. -/

namespace Sys2Proof.Machine

open Sys2Proof.Claims

/-! ## ConditionalMove -/

/-- Settles O13: the opcode map selects it for opcode 0, and its condition decides between a register write and the
step of `pc` alone. -/
theorem conditionalMoveMovesWhenConditionNonZero : Obligations.ConditionalMoveMovesWhenConditionNonZero :=
  fun a b c _ => ⟨decodesAs_selectThreeRegister 0 a b c,
    fun hc => writesRegister_of_setReg (execConditionalMove_move hc),
    fun hc => onlyMovesPc_of_setPc (execConditionalMove_keep hc)⟩

/-! ## The load-immediate words -/

section
variable {dest : Reg} {value : Nat}

/-- The fields of a load-immediate word fit 32 bits, so that it is their sum. -/
theorem loadImmediateWord_toNat (hv : value < 2 ^ 25) :
    (loadImmediateWord dest value).toNat = 13 * 2 ^ 28 + dest.val * 2 ^ 25 + value := by
  have hdest := dest.isLt
  unfold loadImmediateWord
  rw [BitVec.toNat_ofNat]
  exact Nat.mod_eq_of_lt (by omega)

/-- A word of opcode 13 is LoadImmediate with its 25-bit field zero-extended (R99, R103). -/
theorem decodeInstr_loadImmediateWord (hv : value < 2 ^ 25) :
    decodeInstr (loadImmediateWord dest value) = .ok (.loadImmediate dest ((BitVec.ofNat 25 value).setWidth 32)) := by
  have hdest := dest.isLt
  have hword := loadImmediateWord_toNat (dest := dest) hv
  have hdec : decode (loadImmediateWord dest value) = .loadImmediate dest (BitVec.ofNat 25 value) := by
    refine decode_eq_loadImmediate_iff.2 ?_
    rw [BitVec.toNat_ofNat]
    omega
  rw [decodeInstr, hdec, selectInstr]

end

/-! ## LoadImmediate -/

/-- Settles O14: the field zero-extended is the value, has no bit above the field, and replaces the whole register. -/
theorem loadImmediateZeroExtendsTheValue : Obligations.LoadImmediateZeroExtendsTheValue := by
  intro dest value s hv
  refine ⟨(BitVec.ofNat 25 value).setWidth 32, ?_, fun k hk => ?_, decodeInstr_loadImmediateWord hv,
    writesRegister_of_setReg execLoadImmediate_eq⟩
  · rw [BitVec.toNat_setWidth_of_le (by decide), BitVec.toNat_ofNat, Nat.mod_eq_of_lt hv]
  · rw [BitVec.getLsbD_setWidth, BitVec.getLsbD_of_ge _ _ hk, Bool.and_false]

end Sys2Proof.Machine
end

section
/-! PROOFS. The family of 42_arithmetic_logic.md: the ALU's four functions in numbers and bits, the operations built of
them, then the four instructions, each of which writes the function's result. -/

namespace Sys2Proof.Machine

open Sys2Proof.Claims

/-! ## The ALU's functions -/

section
variable {p q d : Word}

/-- The sum modulo `2^32` (R160). -/
theorem aluAdd_toNat (p q : Word) : (aluAdd p q).toNat = (p.toNat + q.toNat) % 2 ^ 32 := by
  rw [aluAdd, BitVec.toNat_ofNat]

/-- The low half of the product (R161). -/
theorem aluMul_toNat (p q : Word) : (aluMul p q).toNat = p.toNat * q.toNat % 2 ^ 32 := by
  rw [aluMul, BitVec.toNat_ofNat]

/-- No quotient exactly by zero (R162). -/
theorem aluDiv_eq_none_iff : aluDiv p q = none ↔ q = 0#32 := by
  refine ⟨fun h => ?_, aluDiv_zero⟩
  by_contra hq
  rw [aluDiv_nonzero hq] at h
  cases h

/-- A quotient is the floor, which fits a word (R162). -/
theorem aluDiv_toNat (h : aluDiv p q = some d) : d.toNat = p.toNat / q.toNat := by
  have hq : q ≠ 0#32 := fun hq => by
    rw [aluDiv_zero hq] at h
    cases h
  rw [aluDiv_nonzero hq] at h
  cases h
  rw [BitVec.toNat_ofNat, Nat.mod_eq_of_lt ((Nat.div_le_self _ _).trans_lt p.isLt)]

/-- The floor is the largest `v` with `v * q <= p` (R162). -/
theorem aluDiv_bounds (hq : q ≠ 0#32) (h : aluDiv p q = some d) :
    d.toNat * q.toNat ≤ p.toNat ∧ p.toNat < (d.toNat + 1) * q.toNat := by
  have hpos : 0 < q.toNat := Nat.pos_of_ne_zero (BitVec.toNat_ne_iff_ne.2 hq)
  rw [aluDiv_toNat h]
  exact ⟨Nat.div_mul_le_self _ _, (Nat.div_lt_iff_lt_mul hpos).1 (Nat.lt_succ_self _)⟩

/-- Nand bit by bit (R163). -/
theorem aluNand_getLsbD {k : Nat} (hk : k < 32) :
    (aluNand p q).getLsbD k = !(p.getLsbD k && q.getLsbD k) := by
  rw [aluNand, BitVec.getLsbD_not, BitVec.getLsbD_and, decide_eq_true hk, Bool.true_and]

/-! ## The operations built of them (R165) -/

/-- NOT is the Nand of a word with itself. -/
theorem aluNand_self (p : Word) : aluNand p p = ~~~p := by
  rw [aluNand, BitVec.and_self]

/-- AND is the NOT of Nand. -/
theorem aluNand_aluNand (p q : Word) : aluNand (aluNand p q) (aluNand p q) = p &&& q := by
  rw [aluNand_self, aluNand, BitVec.not_not]

/-- OR is the Nand of the two NOTs. -/
theorem aluNand_not_not (p q : Word) : aluNand (aluNand p p) (aluNand q q) = p ||| q := by
  rw [aluNand_self, aluNand_self, aluNand, BitVec.not_and, BitVec.not_not, BitVec.not_not]

/-- Two's-complement negation is NOT plus 1. -/
theorem aluAdd_not_one (p : Word) : aluAdd (aluNand p p) 1#32 = -p := by
  rw [aluAdd_eq, aluNand_self, BitVec.neg_eq_not_add]

/-- Subtraction adds the negation. -/
theorem aluAdd_neg (p q : Word) : aluAdd p (aluAdd (aluNand q q) 1#32) = p - q := by
  rw [aluAdd_not_one, aluAdd_eq, BitVec.sub_eq_add_neg]

end

/-- Settles O29: the four functions as the model gives them, and each operation by its combination. -/
theorem aluFunctionsAndDerivedOperations : Obligations.AluFunctionsAndDerivedOperations :=
  fun p q => ⟨aluAdd_toNat p q, aluMul_toNat p q, aluDiv_eq_none_iff.symm, fun _ => aluDiv_toNat, rfl,
    (aluNand_self p).symm, (aluNand_aluNand p q).symm, (aluNand_not_not p q).symm, (aluAdd_not_one p).symm,
    (aluAdd_neg p q).symm⟩

/-! ## The four instructions -/

/-- Settles O15: the opcode map selects it for opcode 3, and it writes the ALU's sum. -/
theorem addIsModuloTwoToThe32 : Obligations.AddIsModuloTwoToThe32 :=
  fun a b c _ => ⟨decodesAs_selectThreeRegister 3 a b c, _, aluAdd_toNat _ _, writesRegister_of_setReg execAdd_eq⟩

/-- Settles O16: the opcode map selects it for opcode 4, and it writes the low half of the product. -/
theorem multiplyIsModuloTwoToThe32 : Obligations.MultiplyIsModuloTwoToThe32 :=
  fun a b c _ => ⟨decodesAs_selectThreeRegister 4 a b c, _, aluMul_toNat _ _,
    writesRegister_of_setReg execMultiply_eq⟩

/-- Settles O17: by whether the ALU has a quotient, which lies between the two bounds. -/
theorem divideIsFloorOrDivideByZero : Obligations.DivideIsFloorOrDivideByZero := by
  intro a b c s
  refine ⟨decodesAs_selectThreeRegister 5 a b c, fun hc => ?_, fun hc => ?_⟩
  · have hquot := aluDiv_nonzero (p := s.reg b) hc
    obtain ⟨hle, hlt⟩ := aluDiv_bounds hc hquot
    exact ⟨_, hle, hlt, writesRegister_of_setReg (execDivide_quotient hquot)⟩
  · exact faults_of_raise (execDivide_zero (aluDiv_zero hc))

/-- Settles O18: the opcode map selects it for opcode 6, and it writes the ALU's Nand. -/
theorem nandIsBitwise : Obligations.NandIsBitwise :=
  fun a b c _ => ⟨decodesAs_selectThreeRegister 6 a b c, _, fun _ hk => aluNand_getLsbD hk,
    writesRegister_of_setReg execNand_eq⟩

end Sys2Proof.Machine
end

section
/-! PROOFS. The family of 43_segment_access.md: what `MemRead` and `MemWrite` answer inside a segment, then
SegmentLoad, SegmentStore, and the id MapSegment returns. -/

namespace Sys2Proof.Machine

open Sys2Proof.Claims

/-! ## Reading and writing inside a segment -/

section
variable {t t' : SegTable} {id off v : Word}

/-- `MemRead` inside a mapped segment answers the cell's word (R55). -/
theorem SegTable.memRead_inside {n : Nat} (hn : t.len id = some n) (hlt : off.toNat < n) :
    ∃ v, t.cell id off = some v ∧ t.memRead id off = .ok v := by
  obtain ⟨v, hv⟩ := Option.isSome_iff_exists.1 (SegTable.cell_isSome_iff.2 ⟨n, hn, hlt⟩)
  exact ⟨v, hv, SegTable.memRead_eq_ok.2 hv⟩

/-- `MemWrite` succeeds inside a mapped segment (R56). -/
theorem SegTable.memWrite_succeeds {n : Nat} (hn : t.len id = some n) (hlt : off.toNat < n) (v : Word) :
    ∃ t', t.memWrite id off v = .ok t' := by
  obtain ⟨words, hw, rfl⟩ := SegTable.len_eq_some.1 hn
  exact ⟨_, SegTable.memWrite_inside hw hlt⟩

/-- `MemWrite` keeps the pool and the count of issued ids (R56). -/
theorem SegTable.pool_memWrite (h : t.memWrite id off v = .ok t') : t'.free = t.free ∧ t'.nextId = t.nextId := by
  obtain ⟨words, -, -, rfl⟩ := SegTable.memWrite_ok h
  exact ⟨rfl, rfl⟩

/-- `MemWrite` puts its word into the cell it names (R56). -/
theorem SegTable.cell_memWrite_self (h : t.memWrite id off v = .ok t') : t'.cell id off = some v := by
  obtain ⟨words, -, hlt, rfl⟩ := SegTable.memWrite_ok h
  rw [SegTable.cell_insert, if_pos rfl, List.getElem?_set_self hlt]

/-- `MemWrite` keeps every cell but the one it names (R56). -/
theorem SegTable.cell_memWrite_ne (h : t.memWrite id off v = .ok t') {k o : Word} (hne : (k, o) ≠ (id, off)) :
    t'.cell k o = t.cell k o := by
  obtain ⟨words, hw, -, rfl⟩ := SegTable.memWrite_ok h
  rw [SegTable.cell_insert]
  split
  · next hk =>
    subst hk
    have ho : off.toNat ≠ o.toNat := fun e => hne (Prod.ext rfl (BitVec.eq_of_toNat_eq e.symm))
    rw [SegTable.cell_of_segment hw, List.getElem?_set_ne ho]
  · rfl

/-- `MemWrite` keeps every length (R56). -/
theorem SegTable.len_memWrite (h : t.memWrite id off v = .ok t') (k : Word) : t'.len k = t.len k := by
  obtain ⟨words, hw, -, rfl⟩ := SegTable.memWrite_ok h
  rw [SegTable.len_insert]
  split
  · next hk => rw [hk, List.length_set, SegTable.len_eq_some.2 ⟨words, hw, rfl⟩]
  · rfl

end

/-! ## The instructions -/

/-- Settles O19: by the three answers of `MemRead`, the faults in the order of its checks. -/
theorem segmentLoadReadsTheCellOrFaults : Obligations.SegmentLoadReadsTheCellOrFaults := by
  intro a b c s
  refine ⟨decodesAs_selectThreeRegister 1 a b c, fun n hn hlt => ?_, fun hu => ?_, fun ⟨n, hn, hle⟩ => ?_⟩
  · obtain ⟨v, hcell, hread⟩ := SegTable.memRead_inside hn hlt
    exact ⟨v, hcell, writesRegister_of_setReg (execSegmentLoad_ok hread)⟩
  · exact faults_of_raise (execSegmentLoad_error (SegTable.memRead_unmapped hu))
  · exact faults_of_raise (execSegmentLoad_error (SegTable.memRead_outOfBounds hn hle))

/-- Settles O20: by the three answers of `MemWrite`, whose success changes one cell. -/
theorem segmentStoreWritesOneCellOrFaults : Obligations.SegmentStoreWritesOneCellOrFaults := by
  intro a b c s
  refine ⟨decodesAs_selectThreeRegister 2 a b c, fun n hn hlt => ?_, fun hu => ?_, fun ⟨n, hn, hle⟩ => ?_⟩
  · obtain ⟨tbl, hwrite⟩ := SegTable.memWrite_succeeds hn hlt (s.reg c)
    obtain ⟨hfree, hnext⟩ := SegTable.pool_memWrite hwrite
    exact ⟨_, execSegmentStore_ok hwrite, SegTable.cell_memWrite_self hwrite,
      fun _ _ hne => SegTable.cell_memWrite_ne hwrite hne, SegTable.len_memWrite hwrite, hfree, hnext,
      rfl, rfl, fun _ => rfl, rfl, rfl, rfl⟩
  · exact faults_of_raise (execSegmentStore_error (SegTable.memWrite_unmapped hu))
  · exact faults_of_raise (execSegmentStore_error (SegTable.memWrite_outOfBounds hn hle))

/-- Settles O35: the id taken is unmapped by the invariants of the pool and of the fresh ids, and segment 0 is mapped
while `Running`, so that the id is not 0. -/
theorem mapSegmentReturnsAnUnmappedId : Obligations.MapSegmentReturnsAnUnmappedId := by
  intro b c s t h hr hs ht
  have hlive := h.live hr
  rcases execMapSegment_cases hs with ⟨id, tbl, -, hid, rfl⟩ | ⟨-, -, rfl⟩
  · have hunmapped : s.table.segment id = none := hlive.allocated_unmapped hid
    have hne : id ≠ 0#32 := by
      rintro rfl
      simpa [hunmapped] using hlive.programMapped
    have hreg : ((s.setTable tbl).setReg b id).advance.reg b = id := State.reg_setReg_self _ _ _
    exact hreg.symm ▸ ⟨hne, hunmapped⟩
  · cases ht

end Sys2Proof.Machine
end

section
/-! PROOFS. The family of 44_control.md: what replacing the program answers and what it leaves unchanged, then Halt and
LoadProgram. -/

namespace Sys2Proof.Machine

open Sys2Proof.Claims

/-! ## Replacing the program -/

section
variable {t t' : SegTable} {id : Word}

/-- `SegReplaceProgram` succeeds on a mapped segment (R57). -/
theorem SegTable.segReplaceProgram_succeeds {n : Nat} (h0 : id ≠ 0#32) (hn : t.len id = some n) :
    ∃ t', t.segReplaceProgram id = .ok t' := by
  obtain ⟨words, hw, -⟩ := SegTable.len_eq_some.1 hn
  exact ⟨_, SegTable.segReplaceProgram_ok.2 (.inr ⟨h0, words, hw, rfl⟩)⟩

/-- A lookup after `SegReplaceProgram`: segment 0 is the source, every other is as before, the source among them
(R57). -/
theorem SegTable.segment_segReplaceProgram (h : t.segReplaceProgram id = .ok t') (k : Word) :
    t'.segment k = if k = 0#32 then t.segment id else t.segment k := by
  rcases SegTable.segReplaceProgram_ok.1 h with ⟨rfl, rfl⟩ | ⟨-, words, hw, rfl⟩
  · split
    · next hk => rw [hk]
    · rfl
  · rw [hw]
    exact SegTable.segment_insert _ _ _ _

/-- `SegReplaceProgram` keeps the pool and the count of issued ids (R57). -/
theorem SegTable.pool_segReplaceProgram (h : t.segReplaceProgram id = .ok t') :
    t'.free = t.free ∧ t'.nextId = t.nextId := by
  rcases SegTable.segReplaceProgram_ok.1 h with ⟨-, rfl⟩ | ⟨-, words, -, rfl⟩ <;> exact ⟨rfl, rfl⟩

end

/-! ## The instructions -/

/-- Settles O23: Halt answers the released table in a terminal state, which steps to itself. -/
theorem haltReleasesEverySegment : Obligations.HaltReleasesEverySegment :=
  fun a b c s => ⟨decodesAs_selectThreeRegister 7 a b c, _, execHalt_eq, rfl,
    fun _ => SegTable.segReleaseAll_segment, fun _ _ => SegTable.cell_of_unmapped SegTable.segReleaseAll_segment,
    rfl, rfl, rfl, fun _ => rfl, ⟨rfl, rfl, rfl⟩, rfl, runsFor_of_fixed (step_terminal rfl)⟩

/-- Settles O24: by the three answers of `SegReplaceProgram`, the copy read off a lookup. -/
theorem loadProgramCopiesThenJumps : Obligations.LoadProgramCopiesThenJumps := by
  intro a b c s
  refine ⟨decodesAs_selectThreeRegister 12 a b c, fun h0 => ?_, fun h0 n hn => ?_, fun h0 hu => ?_⟩
  · exact onlyMovesPc_of_setPc (execLoadProgram_jump h0)
  · obtain ⟨tbl, hcopy⟩ := SegTable.segReplaceProgram_succeeds h0 hn
    obtain ⟨hfree, hnext⟩ := SegTable.pool_segReplaceProgram hcopy
    have hprog : tbl.segment 0#32 = s.table.segment (s.reg b) :=
      (SegTable.segment_segReplaceProgram hcopy _).trans (if_pos rfl)
    have hkept (k : Word) (hk : k ≠ 0#32) : tbl.segment k = s.table.segment k :=
      (SegTable.segment_segReplaceProgram hcopy k).trans (if_neg hk)
    have hlen : tbl.len 0#32 = some n := by rw [SegTable.len, hprog, ← hn, SegTable.len]
    exact ⟨_, execLoadProgram_ok hcopy, rfl, hlen, SegTable.cell_eq_of_segment_eq hprog,
      fun k hk => ⟨SegTable.len_congr (hkept k hk), SegTable.cell_congr (hkept k hk)⟩, hfree, hnext, rfl,
      fun _ => rfl, rfl, rfl, rfl⟩
  · exact faults_of_raise (execLoadProgram_error (SegTable.segReplaceProgram_error.2 ⟨h0, hu, rfl⟩))

end Sys2Proof.Machine
end

section
/-! PROOFS. The family of 45_io.md: Output by the three ranges of the value, Input by whether a byte is left. -/

namespace Sys2Proof.Machine

open Sys2Proof.Claims

/-- A state with the same segment table has the same memory, pool and count of issued ids. -/
theorem tableKept_of_table_eq {s t : State} (h : t.table = s.table) : TableKept s t := by
  rw [TableKept, MemoryKept, h]
  exact ⟨⟨fun _ _ => rfl, fun _ => rfl⟩, rfl, rfl⟩

/-! ## Output -/

section
variable {v : Word}

/-- A byte value is not the sentinel (R220). -/
theorem ne_sentinel_of_byte (h : v.toNat ≤ 255) : v ≠ sentinel := by
  rintro rfl
  exact absurd h (by decide)

/-- The byte written for a byte value has that value (R220). -/
theorem toNat_setWidth_of_byte (h : v.toNat ≤ 255) : (v.setWidth 8).toNat = v.toNat := by
  rw [BitVec.toNat_setWidth]
  exact Nat.mod_eq_of_lt (by omega)

end

/-- Settles O25: the sentinel moves `pc` alone, a byte value is appended as a byte, and the values between the two
fault. -/
theorem outputWritesOneByteSkipsOrFaults : Obligations.OutputWritesOneByteSkipsOrFaults := by
  intro a b c s
  refine ⟨decodesAs_selectThreeRegister 10 a b c, fun hsentinel => ?_, fun hbyte => ?_, fun hge hle => ?_⟩
  · exact onlyMovesPc_of_setPc (execOutput_sentinel hsentinel)
  · exact ⟨_, _, execOutput_byte (ne_sentinel_of_byte hbyte) (by omega), toNat_setWidth_of_byte hbyte,
      rfl, rfl, rfl, rfl, rfl, fun _ => rfl, tableKept_of_table_eq rfl⟩
  · obtain ⟨hne, hge⟩ := outputRange_iff.2 ⟨hge, hle⟩
    exact faults_of_raise (execOutput_range hne hge)

/-! ## Input -/

/-- Settles O26: by whether the stream has a byte left; the byte is zero-extended into the whole register. -/
theorem inputReadsOneByteOrTheSentinel : Obligations.InputReadsOneByteOrTheSentinel := by
  intro a b c s
  refine ⟨decodesAs_selectThreeRegister 11 a b c, fun byte hbyte => ?_, fun hend => ?_⟩
  · have hvalue : (byte.setWidth 32).toNat = byte.toNat := BitVec.toNat_setWidth_of_le (by decide)
    refine ⟨_, execInput_byte hbyte, ?_, rfl, rfl, rfl, rfl, rfl, fun r hr => ?_, tableKept_of_table_eq rfl⟩
    · rw [State.advance_reg, State.reg_setReg_self, hvalue]
    · exact State.reg_setReg_ne _ _ _ _ hr
  · exact writesRegister_of_setReg (execInput_end (List.getElem?_eq_none hend))

end Sys2Proof.Machine
end

section
/-! PROOFS. The family of 60_exceptions.md: a step that ends `Faulted` raised that fault, so that a fault is raised
exactly on its condition and changes the run state alone. -/

namespace Sys2Proof.Machine

open Sys2Proof.Claims

variable {s t : State} {f : FatalFault}

/-- Whatever `raise` answers differs in the run state alone (R241). -/
theorem faultedFrom_of_raise (h : raise f s = .next t) : FaultedFrom f s t := by
  cases h
  exact ⟨rfl, rfl, setRun_keeps s _⟩

/-- A step from `Running` that ends `Faulted` raised that fault: the cycle did, or the instruction at `(0, pc)`
(R240, R241). -/
theorem step_eq_raise_of_faulted (hr : s.run = .running) (hs : step s = .next t) (hf : t.run = .faulted f) :
    step s = raise f s := by
  rcases step_running_cases hr with ⟨-, hs'⟩ | ⟨-, hs'⟩ | ⟨w, e, -, -, hs'⟩ | ⟨w, i, -, -, hs'⟩ <;>
    rw [hs'] at hs ⊢
  · cases hs
  · cases hs; cases hf
  · cases hs; cases hf; rfl
  · exact (execRaises_of_faulted hr hs hf).exec_eq

/-- Settles O40: a step that raised a fault met its condition, the condition makes the step raise it, and the numbers
are the table's. -/
theorem faultsAreRaisedExactlyOnTheirConditions : Obligations.FaultsAreRaisedExactlyOnTheirConditions :=
  ⟨fun _ _ h hr => ⟨fun ⟨_, hs, hf⟩ => cycleFaults_of_step h hr hs hf,
    fun hf => ⟨_, step_of_cycleFaults hr hf, rfl⟩⟩, fun _ _ _ _ => rfl⟩

/-- Settles O41: the step is `raise`. -/
theorem faultingCycleChangesNothingElse : Obligations.FaultingCycleChangesNothingElse :=
  fun _ _ _ hr hs hf => faultedFrom_of_raise (step_eq_raise_of_faulted hr hs hf ▸ hs)

end Sys2Proof.Machine
end

section
/-! PROOFS. The family of 70_reset_and_hazards.md: an id no longer mapped, a program that jumps to itself, and the
reset, whose loader is read off by the words of the binary. -/

namespace Sys2Proof.Machine

open Sys2Proof.Claims

/-! ## The two hazards -/

section
variable {s t : State} {c : Reg}

/-- After a completed UnmapSegment the id is unmapped, and it is not 0 (R54, R183). -/
theorem execUnmapSegment_unmaps (h : exec (.unmapSegment c) s = .next t) (hr : t.run = .running) :
    s.reg c ≠ 0#32 ∧ Unmapped t (s.reg c) := by
  rcases execUnmapSegment_cases h with ⟨h0, -, rfl⟩ | ⟨-, rfl⟩ | ⟨-, -, rfl⟩
  · exact ⟨h0, (SegTable.segment_erase _ _ _ _).trans (if_pos rfl)⟩
  · cases hr
  · cases hr

/-- Settles O36: the id is unmapped and not 0, so that each instruction's table operation answers `UnmappedAccess`. -/
theorem danglingIdFaultsEverywhere : Obligations.DanglingIdFaultsEverywhere := by
  intro c s t _ h hr a b d
  obtain ⟨h0, hu⟩ := execUnmapSegment_unmaps h hr
  generalize s.reg c = id at h0 hu
  refine ⟨?_, ?_, ?_, ?_⟩ <;> rintro rfl
  · exact faults_of_raise (execSegmentLoad_error (SegTable.memRead_unmapped hu))
  · exact faults_of_raise (execSegmentStore_error (SegTable.memWrite_unmapped hu))
  · exact faults_of_raise (execUnmapSegment_error (SegTable.segFree_error.2 (.inr ⟨h0, hu, rfl⟩)))
  · exact faults_of_raise (execLoadProgram_error (SegTable.segReplaceProgram_error.2 ⟨h0, hu, rfl⟩))

/-- Settles O50: the jump writes `pc` with its own value, so that the state steps to itself. -/
theorem selfJumpRunsForEver : Obligations.SelfJumpRunsForEver := by
  intro b c s hr ⟨w, hcell, hd⟩ hb hc
  have hstep : step s = .next s :=
    calc step s = exec (.loadProgram b c) s := step_of_cell hr hcell hd
      _ = .next (s.setPc (s.reg c)) := execLoadProgram_jump hb
      _ = .next s := by rw [hc]; rfl
  exact runsFor_of_fixed hstep

end

/-! ## The words of a binary -/

section
variable {bytes : List Byte} {prog : List Word}

/-- Four bytes are a word, most significant first (R52). -/
theorem wordOfBytes_toNat (b0 b1 b2 b3 : Byte) : (wordOfBytes b0 b1 b2 b3).toNat =
    b0.toNat * 2 ^ 24 + b1.toNat * 2 ^ 16 + b2.toNat * 2 ^ 8 + b3.toNat := by
  have h1 := b1.isLt
  have h2 := b2.isLt
  have h3 := b3.isLt
  simp only [wordOfBytes, BitVec.toNat_append]
  rw [← Nat.shiftLeft_add_eq_or_of_lt h3, ← Nat.shiftLeft_add_eq_or_of_lt h2, ← Nat.shiftLeft_add_eq_or_of_lt h1]
  omega

/-- A binary has words exactly when its size is a multiple of 4 (R59, D10). -/
theorem wordsOfBinary_eq_none_iff : wordsOfBinary bytes = none ↔ bytes.length % 4 ≠ 0 := by
  induction bytes using wordsOfBinary.induct with
  | case1 => simp [wordsOfBinary]
  | case2 b0 b1 b2 b3 rest ih =>
    rw [wordsOfBinary, Option.map_eq_none_iff, ih]
    simp only [List.length_cons]
    omega
  | case3 | case4 | case5 => simp [wordsOfBinary]

/-- Every word of a binary is four bytes of it (R52). -/
theorem length_of_wordsOfBinary (h : wordsOfBinary bytes = some prog) : bytes.length = 4 * prog.length := by
  induction bytes using wordsOfBinary.induct generalizing prog with
  | case1 => cases h; rfl
  | case2 b0 b1 b2 b3 rest ih =>
    obtain ⟨words, hwords, rfl⟩ := Option.map_eq_some_iff.1 h
    have hrest := ih hwords
    simp only [List.length_cons]
    omega
  | case3 | case4 | case5 => cases h

/-- Word `k` of a binary is its bytes `4k` to `4k + 3`, in this order (R52). -/
theorem getElem?_wordsOfBinary (h : wordsOfBinary bytes = some prog) {k : Nat} {b0 b1 b2 b3 : Byte}
    (h0 : bytes[4 * k]? = some b0) (h1 : bytes[4 * k + 1]? = some b1) (h2 : bytes[4 * k + 2]? = some b2)
    (h3 : bytes[4 * k + 3]? = some b3) : prog[k]? = some (wordOfBytes b0 b1 b2 b3) := by
  induction bytes using wordsOfBinary.induct generalizing prog k with
  | case1 => cases h0
  | case2 c0 c1 c2 c3 rest ih =>
    obtain ⟨words, hwords, rfl⟩ := Option.map_eq_some_iff.1 h
    cases k with
    | zero => cases h0; cases h1; cases h2; cases h3; rfl
    | succ k => exact ih hwords h0 h1 h2 h3
  | case3 | case4 | case5 => cases h

/-! ## The loader and the reset -/

/-- The loader's program is the words of the binary, when there are not too many (R7, R283). -/
theorem loadBinary_eq_some_iff : loadBinary bytes = some prog ↔
    wordsOfBinary bytes = some prog ∧ prog.length < 2 ^ 32 := by
  unfold loadBinary
  cases wordsOfBinary bytes with
  | none => simp
  | some words =>
    by_cases hlt : words.length < 2 ^ 32
    · simp only [if_pos hlt]
      exact ⟨fun h => by cases h; exact ⟨rfl, hlt⟩, And.left⟩
    · simp only [if_neg hlt]
      exact ⟨nofun, fun ⟨h, hp⟩ => by cases h; exact absurd hp hlt⟩

/-- The loader refuses a size that is no multiple of 4, and one of `2^32` words or more (D3, D10). -/
theorem loadBinary_eq_none_iff :
    loadBinary bytes = none ↔ bytes.length % 4 ≠ 0 ∨ 2 ^ 32 ≤ bytes.length / 4 := by
  simp only [Option.eq_none_iff_forall_ne_some, ne_eq, loadBinary_eq_some_iff]
  cases hw : wordsOfBinary bytes with
  | none => simpa using Or.inl (wordsOfBinary_eq_none_iff.1 hw)
  | some prog =>
    have hlen := length_of_wordsOfBinary hw
    simp only [Option.some.injEq, not_and, not_lt, forall_eq']
    omega

/-- A reset gives the reset state of the binary's words, from whatever state (R280, R282). -/
theorem hostReset_eq_some_iff {old s : State} {input : List Byte} :
    old.hostReset bytes input = some s ↔ ∃ prog, loadBinary bytes = some prog ∧ State.resetWith prog input = s :=
  Option.map_eq_some_iff

end

/-- Settles O51: the reset is refused where the loader refuses, and else it is the reset state of the binary's
words. -/
theorem bootGivesTheResetState : Obligations.BootGivesTheResetState := by
  intro old bytes input
  refine ⟨Option.map_eq_none_iff.trans loadBinary_eq_none_iff, fun s hs => ?_⟩
  obtain ⟨prog, hload, rfl⟩ := hostReset_eq_some_iff.1 hs
  obtain ⟨hwords, hlt⟩ := loadBinary_eq_some_iff.1 hload
  have hlen := length_of_wordsOfBinary hwords
  have hprog : (State.resetWith prog input).table.segment 0#32 = some prog :=
    (State.resetWith_segment prog input _).trans (if_pos rfl)
  refine ⟨State.resetWith_reg prog input, rfl, rfl, SegTable.len_eq_some.2 ⟨prog, hprog, by omega⟩,
    fun id hid => (State.resetWith_segment prog input id).trans (if_neg hid), fun k b0 b1 b2 b3 h0 h1 h2 h3 => ?_,
    rfl, rfl, rfl, rfl, rfl⟩
  have hk := getElem?_wordsOfBinary hwords h0 h1 h2 h3
  have hklt : k < prog.length := (List.getElem?_eq_some_iff.1 hk).1
  refine ⟨_, ?_, wordOfBytes_toNat b0 b1 b2 b3⟩
  rw [SegTable.cell_of_segment hprog, BitVec.toNat_ofNat, Nat.mod_eq_of_lt (hklt.trans hlt), hk]

end Sys2Proof.Machine
end

section
/-! PROOFS. The example words of 95_test_vectors.md: each is a word of its format, with the bits the instruction
ignores written out. -/

namespace Sys2Proof.Machine

open Sys2Proof.Claims

/-- Settles O12: each word is built of its opcode, its registers and its bits 27:9, or of an immediate's two fields, and
so decodes by the rule of its format. -/
theorem sampleWordsDecode : Obligations.SampleWordsDecode :=
  ⟨decodeInstr_loadImmediateWord (dest := 0) (value := 72) (by decide),
    decodesAs_selectThreeRegister 10 0 0 0 0 (by decide),
    decodesAs_selectThreeRegister 7 0 0 0 0 (by decide),
    decodesAs_selectThreeRegister 8 0 2 1 0 (by decide),
    decodesAs_selectThreeRegister 2 2 0 3 0 (by decide),
    decodesAs_selectThreeRegister 1 4 2 0 0 (by decide),
    decodesAs_selectThreeRegister 3 7 7 2 0 (by decide),
    decodeInstr_loadImmediateWord (dest := 7) (value := 0x1FFFFFF) (by decide),
    decodeInstr_loadImmediateWord (dest := 1) (value := 0x1000001) (by decide),
    decodesAs_selectThreeRegister 3 1 2 3 0x40000 (by decide),
    decodesAs_selectThreeRegister 3 5 2 3 0 (by decide),
    decodesAs_selectThreeRegister 7 7 7 7 0x7FFFF (by decide),
    decodesAs_selectThreeRegister 12 7 7 7 0x7FFFF (by decide),
    decodesAs_selectThreeRegister 0 1 2 3 0 (by decide)⟩

end Sys2Proof.Machine
end
